-- ==== Sys2Proof/Word.lean ====
section
/-! DEFINITION. The value types of R8 and R9: words, bytes, the codec's word and register selectors.
Every value is unsigned; no rule of the spec reads one as signed (R9). -/

namespace Sys2Proof

/-- `Word32` (R9): registers, memory words, instruction words, segment indices, offsets and `pc`. -/
abbrev Word := BitVec 32

/-- `Byte` (R9): one byte of the image, of `INPUT` or of `OUT`. -/
abbrev Byte := BitVec 8

/-- The codec's 64-bit word (R63). -/
abbrev CodecWord := BitVec 64

/-- A register selector: a 3-bit number naming `x[i]`; every value is legal (R72). -/
abbrev Reg := Fin 8

/-- The all-ones word `2^32 - 1`, which IN writes at end of input (R104). -/
def allOnes : Word := 0xFFFFFFFF

/-- `zext_32` of a byte (R9). -/
def zext32 (b : Byte) : Word := b.zeroExtend 32

end Sys2Proof
end

