-- ==== Sys2Proof/Syntax.lean ====
section
/-! DEFINITION. The 14 instructions (R69), one constructor a row of spec/opcode_table.json. A constructor holds
the fields its operation uses; a field the row leaves blank has no effect (R75), so it is not kept. -/

namespace Sys2Proof

/-- The closed instruction set (R2, R69). Selectors keep the spec's names: register A, B and C. -/
inductive Instr where
  /-- opcode 0, conditional move (R93) -/
  | cmov (a b c : Reg)
  /-- opcode 1, segment load (R94) -/
  | sload (a b c : Reg)
  /-- opcode 2, segment store (R95) -/
  | sstore (a b c : Reg)
  /-- opcode 3, add (R96) -/
  | add (a b c : Reg)
  /-- opcode 4, multiply (R97) -/
  | mul (a b c : Reg)
  /-- opcode 5, divide (R98) -/
  | div (a b c : Reg)
  /-- opcode 6, bitwise NAND (R99) -/
  | nand (a b c : Reg)
  /-- opcode 7, halt (R100) -/
  | halt
  /-- opcode 8, allocate segment (R101) -/
  | alloc (b c : Reg)
  /-- opcode 9, free segment (R102) -/
  | free (c : Reg)
  /-- opcode 10, output (R103) -/
  | out (c : Reg)
  /-- opcode 11, input (R104) -/
  | inp (c : Reg)
  /-- opcode 12, load program (R105) -/
  | loadp (b c : Reg)
  /-- opcode 13, load immediate (R106); `imm` is already zero-extended to 32 bits (R71) -/
  | li (a : Reg) (imm : Word)
  deriving DecidableEq, Repr

end Sys2Proof
end

