-- ==== Sys2Proof/WellFormed.lean ====
section
/-! DEFINITION. Which instruction terms an instruction word can hold. -/

namespace Sys2Proof

/-- The one limit an encoding sets: the immediate is 25 bits (R71, R77). Every selector is legal (R72). -/
def Instr.wf : Instr → Bool
  | .cmov _ _ _ => true
  | .sload _ _ _ => true
  | .sstore _ _ _ => true
  | .add _ _ _ => true
  | .mul _ _ _ => true
  | .div _ _ _ => true
  | .nand _ _ _ => true
  | .halt => true
  | .alloc _ _ => true
  | .free _ => true
  | .out _ => true
  | .inp _ => true
  | .loadp _ _ => true
  | .li _ imm => decide (imm.toNat < 2 ^ 25)

end Sys2Proof
end

