-- ==== Sys2Proof/Decode.lean ====
section
/-! DEFINITION. The bit-field codec (R63 to R67), the decoder (R68 to R76) and the canonical encoder (R77). -/

namespace Sys2Proof

/-! ### The codec -/

/-- The value of a field, without the codec's check: `(w >> lsb) mod 2^width` (R64). -/
def codecField (w : CodecWord) (width lsb : Nat) : Nat :=
  (w.toNat >>> lsb) % 2 ^ width

/-- `(2^width - 1) << lsb` within 64 bits (R65). -/
def codecMask (width lsb : Nat) : CodecWord :=
  BitVec.ofNat 64 (2 ^ width - 1) <<< lsb

/-- The word with a field replaced, without the codec's checks: `(w & ~64 mask) | (v << lsb)` (R65). -/
def codecInsert (w : CodecWord) (width lsb v : Nat) : CodecWord :=
  (w &&& ~~~ codecMask width lsb) ||| (BitVec.ofNat 64 v <<< lsb)

/-- Extraction (R64). `none` is the codec's `OutOfRange`: `width + lsb` exceeds the word size. -/
def getu (w : CodecWord) (width lsb : Nat) : Option Nat :=
  if width + lsb > 64 then none else some (codecField w width lsb)

/-- Insertion (R65). `none` is the codec's `OutOfRange`: the field leaves the word, or `v` does not fit it. -/
def newu (w : CodecWord) (width lsb v : Nat) : Option CodecWord :=
  if width + lsb > 64 then none
  else if v ≥ 2 ^ width then none
  else some (codecInsert w width lsb v)

/-! ### The decoder -/

/-- A field of an instruction word, which enters the codec zero-extended (R63). The decoder calls the codec
with six fixed pairs only, all within 32 bits, so it may omit the codec's check (R67, log 24). -/
def wordField (w : Word) (width lsb : Nat) : Nat :=
  codecField (w.zeroExtend 64) width lsb

/-- The register a 3-bit selector names (R72). -/
def selector (w : Word) (lsb : Nat) : Reg :=
  Fin.ofNat 8 (wordField w 3 lsb)

/-- The three results of decoding (R73). -/
inductive Decoded where
  | loadImm (a : Reg) (imm : Word)
  | op (op : Fin 13) (a b c : Reg)
  | invalid (op : Nat)
  deriving DecidableEq, Repr

/-- The decode function, total over all `2^32` words (R73). -/
def decode (w : Word) : Decoded :=
  let op := wordField w 4 28
  if op = 13 then .loadImm (selector w 25) (BitVec.ofNat 32 (wordField w 25 0))
  else if h : op < 13 then .op ⟨op, h⟩ (selector w 6) (selector w 3) (selector w 0)
  else .invalid op

/-- Rows 0 to 12 of the opcode map (R69): each operation with the fields it uses, in opcode order. -/
def opcodeMap : Vector (Reg → Reg → Reg → Instr) 13 :=
  #v[.cmov, .sload, .sstore, .add, .mul, .div, .nand,
     fun _ _ _ => .halt,
     fun _ b c => .alloc b c,
     fun _ _ c => .free c,
     fun _ _ c => .out c,
     fun _ _ c => .inp c,
     fun _ b c => .loadp b c]

/-- What dispatch makes of a decoded word (R84): an instruction to run, or an invalid opcode to reject. -/
inductive Dispatched where
  | run (i : Instr)
  | invalidOpcode (op : Nat)
  deriving DecidableEq, Repr

/-- The dispatch table (R84), exhaustive over the three results of decoding. -/
def Decoded.dispatch : Decoded → Dispatched
  | .loadImm a imm => .run (.li a imm)
  | .op n a b c => .run (opcodeMap[n] a b c)
  | .invalid n => .invalidOpcode n

/-- The instruction a word stands for, or the invalid opcode it holds (R73, R74, R84). -/
def decodeInstr (w : Word) : Dispatched := (decode w).dispatch

/-- The decoder on a word numbered as spec/opcode_table.json numbers it; every row is one 32-bit word (R61).
`none` is a word whose opcode is invalid (R74). -/
def decodeTableWord (nbits w : Nat) : Option Instr :=
  match decodeInstr (BitVec.ofNat 32 (w % 2 ^ nbits)) with
  | .run i => some i
  | .invalidOpcode _ => none

/-! ### The encoder -/

/-- `EncodeR(op, a, b, c)` (R77), through the codec: don't-care bits 0. -/
def encodeR (op : Nat) (a b c : Reg) : Option Word := do
  let w ← newu 0 4 28 op
  let w ← newu w 3 6 a
  let w ← newu w 3 3 b
  let w ← newu w 3 0 c
  return w.setWidth 32

/-- `EncodeI(a, imm)` (R77); `none` when the immediate does not fit 25 bits. -/
def encodeI (a : Reg) (imm : Nat) : Option Word := do
  let w ← newu 0 4 28 13
  let w ← newu w 3 25 a
  let w ← newu w 25 0 imm
  return w.setWidth 32

/-- The canonical word of an instruction (R77, R78): unused fields 0; `none` for a term no word can hold. -/
def encode : Instr → Option Word
  | .cmov a b c => encodeR 0 a b c
  | .sload a b c => encodeR 1 a b c
  | .sstore a b c => encodeR 2 a b c
  | .add a b c => encodeR 3 a b c
  | .mul a b c => encodeR 4 a b c
  | .div a b c => encodeR 5 a b c
  | .nand a b c => encodeR 6 a b c
  | .halt => encodeR 7 0 0 0
  | .alloc b c => encodeR 8 0 b c
  | .free c => encodeR 9 0 0 c
  | .out c => encodeR 10 0 0 c
  | .inp c => encodeR 11 0 0 c
  | .loadp b c => encodeR 12 0 b c
  | .li a imm => encodeI a imm.toNat

end Sys2Proof
end

