-- ==== Sys2Proof/Config.lean ====
section
/-! DEFINITION. The launch parameters of R7, and the one value the spec leaves to the implementation. -/

namespace Sys2Proof

/-- `OUT_WIDE_POLICY` (R7, R103, D4): what OUT does with a value of 256 or more. -/
inductive OutWidePolicy where
  /-- raise `OutputRange`; the spec's default -/
  | abort
  /-- no effect; what the source system did -/
  | ignore
  deriving DecidableEq, Repr

/-- `IMAGE_TAIL_POLICY` (R7, R49, D5): what loading does with one to three trailing image bytes. -/
inductive ImageTailPolicy where
  /-- drop them; the spec's default -/
  | truncate
  /-- end the launch `ABORTED` with `MalformedInput` (R123) -/
  | reject
  deriving DecidableEq, Repr

/-- `ALLOC_ADMIT(n, S)` (R7, R44, D9), the spec's open predicate, written as data so that a state can be
compared. DESIGN CHOICE (log 4): three instances of it; a claim over every state is a claim for each. -/
inductive AllocAdmit where
  /-- every request is admitted (the test vectors' setting) -/
  | always
  /-- a request is admitted while the words of all live segments stay within the budget -/
  | budget (words : Nat)
  /-- the uninterpreted predicate `Config.admits`: nothing is known of it -/
  | uninterpreted
  deriving DecidableEq, Repr

/-- The parameters the host supplies at launch (R7, R124). They are configuration (R32): no step writes
them (log 2). -/
structure Config where
  outWidePolicy : OutWidePolicy
  imageTailPolicy : ImageTailPolicy
  allocAdmit : AllocAdmit
  deriving DecidableEq, Repr

/-- The spec's default policies (R7), with every allocation admitted (log 4). -/
def Config.default : Config where
  outWidePolicy := .abort
  imageTailPolicy := .truncate
  allocAdmit := .always

/-- The memory unit's own admission predicate (D9): total, of the word count and the state `S` of R14,
and otherwise unknown. No proof can see a value of it. -/
opaque Config.admits {σ : Type} (n : Word) (S : σ) : Bool

end Sys2Proof
end

