-- ==== Sys2Proof/Machine/State.lean ====
section
/-! DEFINITION. The architectural state of R14, as plain data, its reset value (R34), and the reasons a step can
stop. Log 25 covers the enumerations, log 8 the form of a segment, logs 2 and 7 the two fields of the model's own. -/

namespace Sys2Proof.Machine

/-- `RUN_STATE` (R22). -/
inductive RunState where
  | running
  | halted
  | aborted
  deriving DecidableEq, Repr

/-- `HALT_CAUSE` (R23). -/
inductive HaltCause where
  | none
  /-- opcode 7 -/
  | haltInstr
  /-- fetch at the end of segment 0 -/
  | exhausted
  deriving DecidableEq, Repr

/-- `ERR_KIND` (R24): the kinds of R108. -/
inductive ErrKind where
  | none
  | invalidOpcode
  | invalidSegment
  | outOfBounds
  | divideByZero
  | outputRange
  | resourceExhausted
  | outOfRange
  | malformedInput
  deriving DecidableEq, Repr

/-- One answer of an interactive host's input port (R90, R119). -/
inductive PortAnswer where
  | notReady
  | eof
  | byte (b : Byte)
  deriving DecidableEq, Repr

/-- The input model the launch chose (R119). -/
inductive InputPort where
  /-- the default: `INPUT`, a finite launch sequence, always ready (R27) -/
  | sequence
  /-- an interactive host, with the answers it will give; when they run out the port stays not ready
  (DESIGN CHOICE, log 7) -/
  | interactive (answers : List PortAnswer)
  deriving DecidableEq, Repr

/-- A segment (R29): its word count, fixed at creation, and its non-zero words by offset, offsets strictly
rising. An unlisted offset below `len` holds 0 (log 8). -/
structure Segment where
  len : Word
  words : List (Nat × Word)
  deriving DecidableEq, Repr

/-- The memory unit's state (R28 to R30): the slot count `N`, the Mapped slots by index, indices strictly
rising, and the free-index pool, top first. A slot below `slots` that is not listed is Unmapped. -/
structure Memory where
  slots : Nat
  table : List (Nat × Segment)
  pool : List Word
  deriving DecidableEq, Repr

/-- The state (R14). -/
structure State where
  /-- `x[0]` to `x[7]` (R15) -/
  regs : Vector Word 8
  /-- the program counter, a word offset into segment 0 (R18) -/
  pc : Word
  /-- `N`, the segment table and the pool (R28 to R30) -/
  mem : Memory
  runState : RunState
  haltCause : HaltCause
  errKind : ErrKind
  /-- `OUT`, the bytes emitted so far (R26) -/
  out : List Byte
  /-- `INPUT` (R27) -/
  input : List Byte
  /-- the read position in `INPUT` (R27) -/
  inpos : Nat
  /-- the model's own: the input model and, if interactive, the answers to come (log 7) -/
  port : InputPort
  /-- the model's own: the launch parameters, which no step writes (R32, log 2) -/
  config : Config
  deriving DecidableEq, Repr

/-- Why the model stops where the spec has no state: both cases are ruled out by R33 (I1). -/
inductive Fault where
  /-- `fetch` finds segment 0 Unmapped, which R29 says never happens between steps. Safe: the model stops. -/
  | streamUnmapped
  /-- `fetch` finds `pc` beyond the end of segment 0, which R18 says never happens. Safe: the model stops. -/
  | pcBeyondStream
  deriving DecidableEq, Repr

/-- Why an instruction has no meaning. -/
inductive Refusal where
  /-- raised by an arm of `exec` that has no meaning yet; no arm does. Safe: the model stops. -/
  | notModelled (mnemonic : String)
  deriving DecidableEq, Repr

/-- Every field at the value R34 gives, for the empty image and the empty `INPUT` (log 26), with the spec's
default parameters (R7). -/
def State.reset : State where
  regs := Vector.replicate 8 0
  pc := 0
  mem := { slots := 1, table := [(0, { len := 0, words := [] })], pool := [] }
  runState := .running
  haltCause := .none
  errKind := .none
  out := []
  input := []
  inpos := 0
  port := .sequence
  config := Config.default

end Sys2Proof.Machine
end

