-- ==== Sys2Proof/Machine/Operands.lean ====
section
/-! DEFINITION. The one operand form an instruction word has: a general register named by a selector (R72). No
register is hardwired, aliased or banked (R15). -/

namespace Sys2Proof.Machine

/-- `x[i]` read (R11). -/
def State.reg (s : State) (i : Reg) : Word := s.regs[i]

/-- `x[i] <- v` (R11). -/
def State.setReg (s : State) (i : Reg) (v : Word) : State := { s with regs := s.regs.set i v }

/-- `pc <- target` (R11). -/
def State.setPc (s : State) (target : Word) : State := { s with pc := target }

/-- The memory unit's state replaced by what a request left. -/
def State.setMem (s : State) (m : Memory) : State := { s with mem := m }

end Sys2Proof.Machine
end

