-- ==== Sys2Proof/Machine/Sparse.lean ====
section
/-! DEFINITION. Sparse data by key, as a list of key and value pairs in one canonical form: keys strictly rising. The segment
table and the words of a segment are both held so (log 8). -/

namespace Sys2Proof.Machine

/-- The value at a key. -/
def sparseFind {α : Type} : List (Nat × α) → Nat → Option α
  | [], _ => none
  | (k, v) :: rest, i => if k = i then some v else sparseFind rest i

/-- The value at a key replaced, or placed where the keys stay rising. -/
def sparseInsert {α : Type} : List (Nat × α) → Nat → α → List (Nat × α)
  | [], i, x => [(i, x)]
  | (k, v) :: rest, i, x =>
    if i < k then (i, x) :: (k, v) :: rest
    else if k = i then (i, x) :: rest
    else (k, v) :: sparseInsert rest i x

/-- A key removed. -/
def sparseErase {α : Type} : List (Nat × α) → Nat → List (Nat × α)
  | [], _ => []
  | (k, v) :: rest, i => if k = i then sparseErase rest i else (k, v) :: sparseErase rest i

/-- Every key is at least `lo`, and the keys rise strictly. -/
def sparseRisingFrom {α : Type} : Nat → List (Nat × α) → Bool
  | _, [] => true
  | lo, (k, _) :: rest => decide (lo ≤ k) && sparseRisingFrom (k + 1) rest

/-- The canonical form: the keys rise strictly. -/
def sparseRising {α : Type} (l : List (Nat × α)) : Bool := sparseRisingFrom 0 l

/-- Every key is below a bound. -/
def sparseBelow {α : Type} (bound : Nat) (l : List (Nat × α)) : Bool :=
  l.all fun e => decide (e.1 < bound)

end Sys2Proof.Machine
end

