-- ==== Sys2Proof/Machine/Ops.lean ====
section
/-! DEFINITION. The named operations the meanings are built from: the memory unit's primitives (R38 to R47), the fatal
outcome and the halt (R11, R107), and the two ports (R118, R119). A request that fails answers the kind of
the error and changes nothing (R38, D12). -/

namespace Sys2Proof.Machine

/-! ### Segments -/

/-- A segment of `n` words, each 0 (R44). -/
def Segment.zeros (n : Word) : Segment := { len := n, words := [] }

/-- The word at an offset, or nothing at or beyond the end (R41). An unlisted offset below the length holds the
0 the segment was created with (R29). -/
def Segment.wordAt (g : Segment) (o : Word) : Option Word :=
  if o < g.len then some ((sparseFind g.words o.toNat).getD 0) else none

/-- `g with g[o] := v` (R42), for an offset below the length; the length never changes. -/
def Segment.withWord (g : Segment) (o v : Word) : Segment :=
  { g with words := if v = 0 then sparseErase g.words o.toNat else sparseInsert g.words o.toNat v }

/-- The canonical form: offsets strictly rising and below the length, and no listed word 0 (log 8). -/
def Segment.wf (g : Segment) : Bool :=
  sparseRising g.words && sparseBelow g.len.toNat g.words && g.words.all fun e => decide (e.2 ≠ 0)

/-! ### The memory unit -/

/-- The segment at a live index (R40): `i < N` and `seg[i]` Mapped. An index no allocation returned is not live
(D19, log 18). -/
def Memory.segment (m : Memory) (i : Word) : Option Segment :=
  if i.toNat < m.slots then sparseFind m.table i.toNat else none

/-- `live(i)` (R40). -/
def Memory.live (m : Memory) (i : Word) : Bool := (m.segment i).isSome

/-- `len(seg[i])` for a live index. -/
def Memory.lenAt (m : Memory) (i : Word) : Option Word := (m.segment i).map Segment.len

/-- The word a read of `(i, o)` gives, if one exists: the model's read of one unit of memory. -/
def Memory.wordAt (m : Memory) (i o : Word) : Option Word := (m.segment i).bind (·.wordAt o)

/-- The canonical form of memory: indices strictly rising and below `N`, each segment canonical, and the pool's
entries below `N`. Equal memories are equal data (log 8). -/
def Memory.wf (m : Memory) : Bool :=
  sparseRising m.table && sparseBelow m.slots m.table && (m.table.all fun e => e.2.wf)
    && m.pool.all fun i => decide (i.toNat < m.slots)

/-- `seg[i] <- Mapped(g)`. -/
def Memory.mapSegment (m : Memory) (i : Nat) (g : Segment) : Memory :=
  { m with table := sparseInsert m.table i g }

/-- `MemRead((i, o), 1)` (R41): liveness before bounds (R43). -/
def memRead (m : Memory) (i o : Word) : Except ErrKind Word :=
  match m.segment i with
  | none => .error .invalidSegment
  | some g =>
    match g.wordAt o with
    | none => .error .outOfBounds
    | some v => .ok v

/-- `MemWrite((i, o), 1, v)` (R42): the same checks; no other word and no length changes. -/
def memWrite (m : Memory) (i o v : Word) : Except ErrKind Memory :=
  match m.segment i with
  | none => .error .invalidSegment
  | some g => if o < g.len then .ok (m.mapSegment i.toNat (g.withWord o v)) else .error .outOfBounds

/-- `Alloc(n)` (R44): the top of the pool if there is one, otherwise a new slot; the words are all 0. `admitted` is
`ALLOC_ADMIT(n, S)`. No new index fits a register once `N = 2^32` (D9, log 10). -/
def memAlloc (m : Memory) (admitted : Bool) (n : Word) : Except ErrKind (Word × Memory) :=
  if m.pool = [] ∧ 2 ^ 32 ≤ m.slots then .error .resourceExhausted
  else if !admitted then .error .resourceExhausted
  else
    match m.pool with
    | i :: rest => .ok (i, { m with table := sparseInsert m.table i.toNat (.zeros n), pool := rest })
    | [] =>
      .ok (BitVec.ofNat 32 m.slots,
        { m with slots := m.slots + 1, table := sparseInsert m.table m.slots (.zeros n) })

/-- `Free(i)` (R45): index 0 is refused (D6, log 11), and so is an index that is not live. The words of the freed
slot are forgotten (R29, log 9). -/
def memFree (m : Memory) (i : Word) : Except ErrKind Memory :=
  if i = 0 then .error .invalidSegment
  else if !m.live i then .error .invalidSegment
  else .ok { m with table := sparseErase m.table i.toNat, pool := i :: m.pool }

/-- `Install(i, o)` on memory (R46); the caller sets `pc` to `o` when it succeeds. Index 0 copies nothing. The pool
and `N` keep their values (D26, log 21). The checks are D7 and D8 (logs 12 and 13). Segment 0 is always live
(R29), so the first check of index 0 fires in no state a run reaches (log 23). -/
def memInstall (m : Memory) (i o : Word) : Except ErrKind Memory :=
  match m.segment i with
  | none => .error .invalidSegment
  | some g =>
    if g.len < o then .error .outOfBounds
    else if i = 0 then .ok m
    else .ok (m.mapSegment 0 g)

/-- What `Fetch()` answers (R47). `broken` is a state R33 (I1) rules out. -/
inductive Fetched where
  | word (w : Word)
  | exhausted
  | broken (f : Fault)
  deriving DecidableEq, Repr

/-- The word `Fetch()` reads, from the current contents of segment 0 (R47, R58). The step advances `pc`. -/
def fetchWord (s : State) : Fetched :=
  match s.mem.segment 0 with
  | none => .broken .streamUnmapped
  | some g =>
    match g.wordAt s.pc with
    | some w => .word w
    | none => if s.pc = g.len then .exhausted else .broken .pcBeyondStream

/-- The words of all live segments together. -/
def Memory.liveWords (m : Memory) : Nat := (m.table.map fun e => e.2.len.toNat).sum

/-- The state `S` of R14: every field but `INPUT`'s bytes and the port's answers, which R82 lets IN alone read, and the
parameters, which are configuration (R32). Those three are blanked; the input position is part of `S`. -/
def State.architectural (s : State) : State :=
  { s with input := [], port := .sequence, config := Config.default }

/-- `ALLOC_ADMIT(n, S)` (R7, R44) under the launch parameter (D9, log 4). -/
def allocAdmits (s : State) (n : Word) : Bool :=
  match s.config.allocAdmit with
  | .always => true
  | .budget words => decide (s.mem.liveWords + n.toNat ≤ words)
  | .uninterpreted => Config.admits n s.architectural

/-! ### The end of a run -/

/-- `raise E` (R107): the run ends `ABORTED` with the kind recorded, and nothing else of the instruction takes
effect (R110). There is no handler, vector or saved state (R113) and no return (R114). The `info` argument is
diagnostic and is not state (R109, log 28). -/
def State.raise (s : State) (e : ErrKind) : State := { s with runState := .aborted, errKind := e }

/-- `halt(c)` (R11). -/
def State.halt (s : State) (c : HaltCause) : State := { s with runState := .halted, haltCause := c }

/-- An instruction whose request may fail: the fatal outcome, or what it does with the answer. -/
def orRaise {α : Type} (s : State) (answer : Except ErrKind α) (k : α → State) :
    Host.Outcome State Fault Refusal :=
  match answer with
  | .error e => .next (s.raise e)
  | .ok v => .next (k v)

/-! ### The ports -/

/-- `Emit(b)` (R118): the byte is appended, and the port never refuses it (D16, log 22). -/
def State.emit (s : State) (b : Byte) : State := { s with out := s.out ++ [b] }

/-- The read position in `INPUT` moved (R27). -/
def State.setInpos (s : State) (n : Nat) : State := { s with inpos := n }

/-- The answers an interactive host has still to give (log 7). -/
def State.setPort (s : State) (p : InputPort) : State := { s with port := p }

/-- `Receive()` (R119): the answer of the input port and the state once it is given. Under the launch sequence
the port is always ready and end of input is sticky (D15, log 6). DESIGN CHOICE (log 36): an interactive answer moves neither
`INPUT` nor `inpos`, whose movement R27 and R119 give for the launch sequence only. -/
def receive (s : State) : PortAnswer × State :=
  match s.port with
  | .sequence =>
    match s.input[s.inpos]? with
    | some b => (.byte b, s.setInpos (s.inpos + 1))
    | none => (.eof, s)
  | .interactive [] => (.notReady, s)
  | .interactive (a :: rest) => (a, s.setPort (.interactive rest))

/-- The input wait (R90): while the port is not ready IN has no step and the core's state is unchanged, so fetch's
increment of `pc` is undone and the same IN is fetched again (log 7). -/
def State.awaitInput (s : State) : State := { s with pc := s.pc - 1 }

end Sys2Proof.Machine
end

