-- ==== Sys2Proof/Machine/Arithmetic.lean ====
section
/-! DEFINITION. Arithmetic and logic, opcodes 3 to 6 (R96 to R99), on unsigned 32-bit words. Carries and high halves are
discarded and recorded nowhere. -/

namespace Sys2Proof.Machine

/-- ADD (R96): the sum modulo `2^32`. -/
def execAdd (a b c : Reg) (s : State) : Host.Outcome State Fault Refusal :=
  .next (s.setReg a (BitVec.ofNat 32 ((s.reg b).toNat + (s.reg c).toNat)))

/-- MUL (R97): the low 32 bits of the unsigned product. -/
def execMul (a b c : Reg) (s : State) : Host.Outcome State Fault Refusal :=
  .next (s.setReg a (BitVec.ofNat 32 ((s.reg b).toNat * (s.reg c).toNat)))

/-- The unsigned quotient, or `DivideByZero` (R98). -/
def quotient (dividend divisor : Word) : Except ErrKind Word :=
  if divisor = 0 then .error .divideByZero
  else .ok (BitVec.ofNat 32 (dividend.toNat / divisor.toNat))

/-- DIV (R98). -/
def execDiv (a b c : Reg) (s : State) : Host.Outcome State Fault Refusal :=
  orRaise s (quotient (s.reg b) (s.reg c)) fun v => s.setReg a v

/-- NAND (R99): the 32-bit complement of the conjunction. -/
def execNand (a b c : Reg) (s : State) : Host.Outcome State Fault Refusal :=
  .next (s.setReg a (~~~ (s.reg b &&& s.reg c)))

end Sys2Proof.Machine
end

