-- ==== Sys2Proof/Machine/LoadImmediate.lean ====
section
/-! DEFINITION. Load immediate, opcode 13 (R106). -/

namespace Sys2Proof.Machine

/-- LI (R106): the zero-extended immediate, whatever the register held. -/
def execLi (a : Reg) (imm : Word) (s : State) : Host.Outcome State Fault Refusal :=
  .next (s.setReg a imm)

end Sys2Proof.Machine
end

