-- ==== Sys2Proof/Machine/MoveAndAccess.lean ====
section
/-! DEFINITION. Conditional move and segment access, opcodes 0 to 2 (R93 to R95). Operands are read before any write
(R88), and `pc` already holds the instruction's offset plus one (R19). -/

namespace Sys2Proof.Machine

/-- CMOV (R93). -/
def execCmov (a b c : Reg) (s : State) : Host.Outcome State Fault Refusal :=
  .next (if s.reg c ≠ 0 then s.setReg a (s.reg b) else s)

/-- SLOAD (R94). -/
def execSload (a b c : Reg) (s : State) : Host.Outcome State Fault Refusal :=
  orRaise s (memRead s.mem (s.reg b) (s.reg c)) fun v => s.setReg a v

/-- SSTORE (R95). -/
def execSstore (a b c : Reg) (s : State) : Host.Outcome State Fault Refusal :=
  orRaise s (memWrite s.mem (s.reg a) (s.reg b) (s.reg c)) fun m => s.setMem m

end Sys2Proof.Machine
end

