-- ==== Sys2Proof/Machine/System.lean ====
section
/-! DEFINITION. Halt, segment management, input and output, and load program, opcodes 7 to 12 (R100 to R105). None is
privileged (R116). -/

namespace Sys2Proof.Machine

/-- HALT (R100): `pc` keeps the value fetch gave it. -/
def execHalt (s : State) : Host.Outcome State Fault Refusal :=
  .next (s.halt .haltInstr)

/-- ALLOC (R101): the count is read before the index is written. -/
def execAlloc (b c : Reg) (s : State) : Host.Outcome State Fault Refusal :=
  orRaise s (memAlloc s.mem (allocAdmits s (s.reg c)) (s.reg c)) fun r =>
    (s.setMem r.2).setReg b r.1

/-- FREE (R102). -/
def execFree (c : Reg) (s : State) : Host.Outcome State Fault Refusal :=
  orRaise s (memFree s.mem (s.reg c)) fun m => s.setMem m

/-- OUT (R103): a value below 256 is emitted, a wider one takes `OUT_WIDE_POLICY` (D4, log 3). -/
def execOut (c : Reg) (s : State) : Host.Outcome State Fault Refusal :=
  if (s.reg c).toNat < 256 then .next (s.emit ((s.reg c).setWidth 8))
  else
    match s.config.outWidePolicy with
    | .abort => .next (s.raise .outputRange)
    | .ignore => .next s

/-- IN (R104): a byte is zero-extended, end of input gives all-ones, and a port that is not ready makes the
instruction wait (R90). -/
def execInp (c : Reg) (s : State) : Host.Outcome State Fault Refusal :=
  match receive s with
  | (.byte b, t) => .next (t.setReg c (zext32 b))
  | (.eof, t) => .next (t.setReg c allOnes)
  | (.notReady, t) => .next t.awaitInput

/-- LOADP (R105), the only control transfer. -/
def execLoadp (b c : Reg) (s : State) : Host.Outcome State Fault Refusal :=
  orRaise s (memInstall s.mem (s.reg b) (s.reg c)) fun m => (s.setMem m).setPc (s.reg c)

end Sys2Proof.Machine
end

