-- ==== Sys2Proof/Machine/Step.lean ====
section
/-! DEFINITION. One step of the control skeleton (R86). -/

namespace Sys2Proof.Machine

/-- A fetched word decoded and dispatched (R84, R86): an invalid opcode raises `InvalidOpcode` and reads no operand
(R74, R111). -/
def runWord (w : Word) (s : State) : Host.Outcome State Fault Refusal :=
  match decodeInstr w with
  | .run i => exec i s
  | .invalidOpcode _ => .next (s.raise .invalidOpcode)

/-- The step while `RUNNING` (R86): fetch, which advances `pc` by one (R19, R47), then decode and dispatch; at the end of
segment 0 a clean halt (R87). -/
def stepRunning (s : State) : Host.Outcome State Fault Refusal :=
  match fetchWord s with
  | .word w => runWord w (s.setPc (s.pc + 1))
  | .exhausted => .next (s.halt .exhausted)
  | .broken f => .fault f

/-- One step. In `HALTED` and `ABORTED` no step is enabled (R89): the state stays as it is (log 1). -/
def step (s : State) : Host.Outcome State Fault Refusal :=
  match s.runState with
  | .running => stepRunning s
  | .halted => .next s
  | .aborted => .next s

/-- Segment 0 with a word placed at an offset, lengthened when it ends at or before it. -/
def placeWord (g : Segment) (o w : Word) : Segment :=
  if o < g.len then g.withWord o w else { g with len := o + 1 }.withWord o w

/-- A state whose next step fetches the given word (log 27): the word stands at `pc` in segment 0, which is lengthened if
it ends before it, and the core is `RUNNING`. Offset `2^32 - 1` lies in no segment, so a `pc` there becomes 0. -/
def State.withFetchWord (s : State) (nbits w : Nat) : State :=
  let pc := if s.pc = allOnes then 0 else s.pc
  let g := placeWord ((s.mem.segment 0).getD (.zeros 0)) pc (BitVec.ofNat 32 (w % 2 ^ nbits))
  { s with
    pc := pc
    mem := { s.mem with slots := max s.mem.slots 1, table := sparseInsert s.mem.table 0 g }
    runState := .running
    haltCause := .none
    errKind := .none }

end Sys2Proof.Machine
end

