-- ==== Sys2Proof/Machine/Flags.lean ====
section
/-! DEFINITION. The core has no flags, condition codes or predicates (R21). What a host reads of the run's outcome
are three status fields (R25, R91), here with the spec's own numbers for them (D10, log 25). -/

namespace Sys2Proof.Machine

/-- `RUN_STATE`, 2 bits; 3 is never held (R22). -/
def RunState.code : RunState → BitVec 2
  | .running => 0
  | .halted => 1
  | .aborted => 2

/-- `HALT_CAUSE`, 2 bits; 3 is never held (R23). -/
def HaltCause.code : HaltCause → BitVec 2
  | .none => 0
  | .haltInstr => 1
  | .exhausted => 2

/-- `ERR_KIND`, 4 bits; 9 to 15 are never held (R108). -/
def ErrKind.code : ErrKind → BitVec 4
  | .none => 0
  | .invalidOpcode => 1
  | .invalidSegment => 2
  | .outOfBounds => 3
  | .divideByZero => 4
  | .outputRange => 5
  | .resourceExhausted => 6
  | .outOfRange => 7
  | .malformedInput => 8

/-- The outcome the host reads at the end of a run (R91), beside the final registers, `pc` and memory. -/
def State.outcome (s : State) : BitVec 2 × BitVec 2 × BitVec 4 × List Byte :=
  (s.runState.code, s.haltCause.code, s.errKind.code, s.out)

end Sys2Proof.Machine
end

