-- ==== Sys2Proof/Machine/Launch.lean ====
section
/-! DEFINITION. The launch (R124): how the host's image becomes segment 0 and a run begins. -/

namespace Sys2Proof.Machine

/-- Four image bytes as one word, the first the most significant (R48). -/
def bigEndian (b0 b1 b2 b3 : Byte) : Word := b0 ++ b1 ++ b2 ++ b3

/-- The whole words of an image, in order; one to three trailing bytes give none (R48, R124 step 3). -/
def imageWords : List Byte → List Word
  | b0 :: b1 :: b2 :: b3 :: rest => bigEndian b0 b1 b2 b3 :: imageWords rest
  | _ => []

/-- The image that a list of words is loaded from: each word big-endian (R48). -/
def imageOf : List Word → List Byte
  | [] => []
  | w :: rest =>
    w.extractLsb' 24 8 :: w.extractLsb' 16 8 :: w.extractLsb' 8 8 :: w.extractLsb' 0 8 :: imageOf rest

/-- A list of words as the non-zero words by offset, from offset `o` on. -/
def sparseWords : Nat → List Word → List (Nat × Word)
  | _, [] => []
  | o, w :: rest => if w = 0 then sparseWords (o + 1) rest else (o, w) :: sparseWords (o + 1) rest

/-- The segment that holds a list of words. -/
def Segment.ofWords (ws : List Word) : Segment :=
  { len := BitVec.ofNat 32 ws.length, words := sparseWords 0 ws }

/-- The state the reset sequence leaves for a given segment 0, input and parameters (R34, R124 steps 1 to 3). -/
def State.launched (config : Config) (stream : Segment) (input : List Byte) (port : InputPort) : State :=
  { State.reset with
    mem := { slots := 1, table := [(0, stream)], pool := [] }
    input := input
    port := port
    config := config }

/-- The reset sequence (R124). `none`: an image of more than `2^32 - 1` words is refused and no initial state exists
(R127, log 19). A trailing partial word takes `IMAGE_TAIL_POLICY` (R49, log 5): under `reject` the launch
ends `ABORTED` before any step, the whole words loaded (R123). DESIGN CHOICE (log 35): an image that is both too long and
has a partial tail under `reject` is refused; the spec does not say which of R123 and R127 prevails. -/
def launch (config : Config) (image input : List Byte) (port : InputPort) : Option State :=
  let words := imageWords image
  let s := State.launched config (.ofWords words) input port
  if 2 ^ 32 - 1 < words.length then none
  else if image.length % 4 ≠ 0 ∧ config.imageTailPolicy = .reject then some (s.raise .malformedInput)
  else some s

end Sys2Proof.Machine
end

