-- ==== Sys2Proof/Safety.lean ====
section
/-! DEFINITION. What counts as a sound state and a safe run, and the terms claims are written in: the invariants of R33, what
a step leaves unchanged, and the bits of an instruction word as R8, R70 and R71 number them. -/

namespace Sys2Proof.Machine

/-! ### Sound states (R33) -/

/-- The memory unit between steps: canonical, and R33 (I2) to (I4). -/
structure Memory.Sound (m : Memory) : Prop where
  /-- the data is in canonical form (log 8) -/
  canonical : m.wf = true
  /-- (I4) -/
  slotsPositive : 1 ≤ m.slots
  /-- (I4): every index fits a register (R28) -/
  slotsBounded : m.slots ≤ 2 ^ 32
  /-- (I2): no pool entry is 0, and each names a slot -/
  poolNamesSlots : ∀ i ∈ m.pool, i ≠ 0 ∧ i.toNat < m.slots
  /-- (I2): no index is in the pool twice -/
  poolNodup : m.pool.Nodup
  /-- (I3): a slot is Unmapped exactly when its index is in the pool -/
  unmappedIffPooled : ∀ i : Word, i.toNat < m.slots → (m.segment i = none ↔ i ∈ m.pool)

/-- The invariants of R33, with the two status fields as R23 and R24 hold them in every run state, and `inpos` within
`INPUT` (R27). -/
structure State.Inv (s : State) : Prop where
  memory : s.mem.Sound
  /-- (I1): segment 0 is Mapped and `pc` is at most its length -/
  stream : ∃ g, s.mem.segment 0 = some g ∧ s.pc ≤ g.len
  /-- (I5), R23: a cause is recorded exactly when the core is `HALTED` -/
  causeIffHalted : s.haltCause ≠ .none ↔ s.runState = .halted
  /-- (I5), R24: a kind is recorded exactly when the core is `ABORTED` -/
  kindIffAborted : s.errKind ≠ .none ↔ s.runState = .aborted
  /-- R27 -/
  inputWithin : s.inpos ≤ s.input.length

/-- The input port is not ready: IN has no step (R90). -/
def State.inputNotReady (s : State) : Prop := (receive s).1 = .notReady

/-- The kinds a step can raise (R108): the codec's kind is unreachable (R67) and `MalformedInput` belongs to the
launch (R123). -/
def stepKinds : List ErrKind :=
  [.invalidOpcode, .invalidSegment, .outOfBounds, .divideByZero, .outputRange, .resourceExhausted]

/-! ### What is left unchanged -/

/-- Every register but those listed keeps its value. -/
def SameRegs (written : List Reg) (s t : State) : Prop := ∀ r : Reg, r ∉ written → t.reg r = s.reg r

/-- All of memory keeps its value: slots, pool, lengths and every word. -/
def SameMemory (s t : State) : Prop := t.mem = s.mem ∧ ∀ i o, t.mem.wordAt i o = s.mem.wordAt i o

/-- Memory keeps its slots, pool and lengths, and every word at an address outside the stored ones. -/
def SameMemoryBut (stored : Word → Word → Prop) (s t : State) : Prop :=
  t.mem.slots = s.mem.slots ∧ t.mem.pool = s.mem.pool ∧ (∀ i, t.mem.lenAt i = s.mem.lenAt i)
    ∧ ∀ i o, ¬ stored i o → t.mem.wordAt i o = s.mem.wordAt i o

/-- The status fields keep their values. -/
def SameStatus (s t : State) : Prop :=
  t.runState = s.runState ∧ t.haltCause = s.haltCause ∧ t.errKind = s.errKind

/-- Nothing is received from the input port. -/
def SameInput (s t : State) : Prop := t.input = s.input ∧ t.inpos = s.inpos ∧ t.port = s.port

/-- Nothing but the listed registers changes. -/
def OnlyRegs (written : List Reg) (s t : State) : Prop :=
  SameRegs written s t ∧ SameMemory s t ∧ SameStatus s t ∧ t.out = s.out ∧ SameInput s t ∧ t.pc = s.pc
    ∧ t.config = s.config

/-- The fatal outcome `e` and nothing else (R107, R110), from the state fetch left. -/
def Aborts (e : ErrKind) (s t : State) : Prop :=
  t.runState = .aborted ∧ t.errKind = e ∧ t.haltCause = s.haltCause ∧ SameRegs [] s t ∧ SameMemory s t
    ∧ t.out = s.out ∧ SameInput s t ∧ t.pc = s.pc ∧ t.config = s.config

/-- A halt with cause `c` and nothing else (R87, R100), from the state given. -/
def Halts (c : HaltCause) (s t : State) : Prop :=
  t.runState = .halted ∧ t.haltCause = c ∧ t.errKind = s.errKind ∧ SameRegs [] s t ∧ SameMemory s t
    ∧ t.out = s.out ∧ SameInput s t ∧ t.pc = s.pc ∧ t.config = s.config

/-! ### The bits of an instruction word -/

/-- `bits[hi:lo]` (R8). -/
def bits (w : Word) (hi lo : Nat) : Nat := w.toNat / 2 ^ lo % 2 ^ (hi + 1 - lo)

/-- The register named by the three bits from `lo` up (R70, R72). -/
def regBits (w : Word) (lo : Nat) : Reg := Fin.ofNat 8 (bits w (lo + 2) lo)

/-- `(op << 28) | (a << 6) | (b << 3) | c` (R77). -/
def canonicalR (op : Nat) (a b c : Reg) : Word :=
  BitVec.ofNat 32 (op * 2 ^ 28 + a.val * 2 ^ 6 + b.val * 2 ^ 3 + c.val)

/-- Format R with opcode `op` (R70): every word with that opcode decodes to the operation with the fields at bits 8..6, 5..3
and 2..0, and the canonical word holds the fields the operation uses, the rest 0 (R77). -/
def FormatR (op : Nat) (f : Reg → Reg → Reg → Instr) (usesA usesB usesC : Bool) : Prop :=
  (∀ w : Word, bits w 31 28 = op → decodeInstr w = .run (f (regBits w 6) (regBits w 3) (regBits w 0)))
    ∧ ∀ a b c : Reg, encode (f a b c) =
        some (canonicalR op (if usesA then a else 0) (if usesB then b else 0) (if usesC then c else 0))

end Sys2Proof.Machine
end

