-- ==== Sys2Proof/Certificates/Slice0/Obligations.lean ====
section
/-! DEFINITION. The statements for the provers. A docstring names the rule a statement formalises; where a clause rests on a
decision the spec marks as its own, or on a log entry, the docstring says so. -/

open Sys2Proof Sys2Proof.Machine

/-! ### Launch and reset -/

/-- R48: the image's bytes, four a word and the first the most significant, become the words of segment 0. -/
def Obligations.LaunchLoadsImageBigEndian : Prop :=
  ∀ (config : Config) (image input : List Byte) (port : InputPort) (s : State),
    launch config image input port = some s →
    s.mem.lenAt 0 = some (BitVec.ofNat 32 (image.length / 4)) ∧
    ∀ (k : Nat) (b0 b1 b2 b3 : Byte),
      image[4 * k]? = some b0 → image[4 * k + 1]? = some b1 →
      image[4 * k + 2]? = some b2 → image[4 * k + 3]? = some b3 →
      s.mem.wordAt 0 (BitVec.ofNat 32 k) =
        some (BitVec.ofNat 32 (b0.toNat * 2 ^ 24 + b1.toNat * 2 ^ 16 + b2.toNat * 2 ^ 8 + b3.toNat))

/-- R48, R124: every list of words short enough for segment 0 has an image, each word's four bytes the most significant first,
whose launch succeeds and loads exactly that list. -/
def Obligations.ImageOfWordsIsLoaded : Prop :=
  ∀ (config : Config) (ws : List Word) (input : List Byte) (port : InputPort), ws.length < 2 ^ 32 →
    ∃ s, launch config (imageOf ws) input port = some s ∧ s.runState = .running ∧
      s.mem.lenAt 0 = some (BitVec.ofNat 32 ws.length) ∧
      ∀ (k : Nat) (w : Word), ws[k]? = some w → s.mem.wordAt 0 (BitVec.ofNat 32 k) = some w

/-- R34, with R16 and R20: the value of every piece of state after a launch, whatever the image. A malformed launch under
`reject` (R123, D5) differs in the two fields it names. The clauses on `port` and `config` are about the model's own fields
(logs 7 and 2), which are the model's choice. -/
def Obligations.LaunchLeavesResetValues : Prop :=
  ∀ (config : Config) (image input : List Byte) (port : InputPort) (s : State),
    launch config image input port = some s →
    (∀ r : Reg, s.reg r = 0) ∧ s.pc = 0 ∧ s.mem.slots = 1 ∧ s.mem.pool = [] ∧
    s.mem.lenAt 0 = some (BitVec.ofNat 32 (imageWords image).length) ∧
    (∀ (k : Nat) (w : Word), (imageWords image)[k]? = some w →
      s.mem.wordAt 0 (BitVec.ofNat 32 k) = some w) ∧
    s.haltCause = .none ∧ s.out = [] ∧ s.input = input ∧ s.inpos = 0 ∧ s.port = port ∧ s.config = config ∧
    (config.imageTailPolicy = .truncate ∨ image.length % 4 = 0 → s.runState = .running ∧ s.errKind = .none)

/-- R49, R123 and D5 (the spec's own decision): a trailing partial word is dropped under `truncate`, and under
`reject` ends the launch `ABORTED` with `MalformedInput`, the rest of the state as `truncate` leaves it. -/
def Obligations.LaunchTailPolicy : Prop :=
  ∀ (config : Config) (image input : List Byte) (port : InputPort) (s : State),
    launch config image input port = some s →
    (config.imageTailPolicy = .truncate ∨ image.length % 4 = 0 →
      s.runState = .running ∧ s.errKind = .none) ∧
    (config.imageTailPolicy = .reject → image.length % 4 ≠ 0 →
      s.runState = .aborted ∧ s.errKind = .malformedInput ∧ s.haltCause = .none ∧
      ∃ t, launch { config with imageTailPolicy := .truncate } image input port = some t ∧
        SameRegs [] t s ∧ SameMemory t s ∧ s.pc = t.pc ∧ s.out = t.out ∧ SameInput t s)

/-- R127 and D20 (the spec's own decision): a launch is refused exactly when the image gives more than `2^32 - 1`
words. That it is refused also when a partial tail is rejected is the model's choice (log 35). -/
def Obligations.LaunchRefusesOversizedImage : Prop :=
  ∀ (config : Config) (image input : List Byte) (port : InputPort),
    launch config image input port = none ↔ 2 ^ 32 - 1 < image.length / 4

/-- R128 (derived by the spec from R124 and R87): the empty image, under either tail policy, and under `truncate` one of fewer
than 4 bytes, halts at the first step. -/
def Obligations.EmptyImageHaltsExhausted : Prop :=
  ∀ (config : Config) (image input : List Byte) (port : InputPort),
    image.length < 4 → config.imageTailPolicy = .truncate ∨ image.length % 4 = 0 →
    ∃ s t, launch config image input port = some s ∧ step s = .next t ∧ Halts .exhausted s t ∧ t.pc = 0

/-! ### Codec, decoder, encoder -/

/-- R64: extraction reads exactly the field, or is out of range. -/
def Obligations.CodecExtracts : Prop :=
  ∀ (w : CodecWord) (width lsb : Nat),
    (getu w width lsb = none ↔ 64 < width + lsb) ∧
    ∀ v, getu w width lsb = some v →
      v < 2 ^ width ∧ ∀ j, v.testBit j = (decide (j < width) && w.getLsbD (lsb + j))

/-- R65: insertion replaces exactly the field, or is out of range. -/
def Obligations.CodecInserts : Prop :=
  ∀ (w : CodecWord) (width lsb v : Nat),
    (newu w width lsb v = none ↔ 64 < width + lsb ∨ 2 ^ width ≤ v) ∧
    ∀ r, newu w width lsb v = some r →
      ∀ j < 64, r.getLsbD j =
        if lsb ≤ j ∧ j < lsb + width then v.testBit (j - lsb) else w.getLsbD j

/-- R66, for the 64-bit codec word (the extension from 32 bits is the spec's own inference): what is inserted is
extracted, and every field that does not overlap keeps its value. -/
def Obligations.CodecRoundTrip : Prop :=
  ∀ (w : CodecWord) (width lsb v : Nat), width + lsb ≤ 64 → v < 2 ^ width →
    ∃ r, newu w width lsb v = some r ∧ getu r width lsb = some v ∧
      ∀ (width' lsb' : Nat), lsb' + width' ≤ lsb ∨ lsb + width ≤ lsb' → getu r width' lsb' = getu w width' lsb'

/-- R68, R70, R71, R73: the decoder reads bits 31..28, and by them the fields of Format R or Format I. -/
def Obligations.DecodeReadsFormatFields : Prop :=
  ∀ w : Word,
    (∀ h : bits w 31 28 < 13,
      decode w = .op ⟨bits w 31 28, h⟩ (regBits w 6) (regBits w 3) (regBits w 0)) ∧
    (bits w 31 28 = 13 → decode w = .loadImm (regBits w 25) (BitVec.ofNat 32 (bits w 24 0))) ∧
    (13 < bits w 31 28 → decode w = .invalid (bits w 31 28) ∧ (bits w 31 28 = 14 ∨ bits w 31 28 = 15))

/-- R75 and D3 (the spec's own decision): two Format R words that agree on the opcode and on bits 8..0 are one
instruction, and HALT, ALLOC, FREE, OUT, IN and LOADP also ignore the fields they do not use. -/
def Obligations.DontCareBitsHaveNoEffect : Prop :=
  ∀ v w : Word, bits v 31 28 = bits w 31 28 →
    (bits w 31 28 ≠ 13 → bits v 8 0 = bits w 8 0 → decodeInstr v = decodeInstr w) ∧
    (bits w 31 28 = 7 → decodeInstr v = decodeInstr w) ∧
    (bits w 31 28 = 8 ∨ bits w 31 28 = 12 → bits v 5 0 = bits w 5 0 → decodeInstr v = decodeInstr w) ∧
    (bits w 31 28 = 9 ∨ bits w 31 28 = 10 ∨ bits w 31 28 = 11 → bits v 2 0 = bits w 2 0 →
      decodeInstr v = decodeInstr w)

/-- R77 (derived by the spec): decoding the canonical word of a well-formed instruction gives it back, for every
instruction and every operand the encoding admits. -/
def Obligations.DecodeOfEncode : Prop :=
  ∀ i : Instr, i.wf = true → ∃ w, encode i = some w ∧ decodeInstr w = .run i

/-- R77: a term no word can hold is exactly an ill-formed one, an immediate of `2^25` or more. -/
def Obligations.EncodeRefusesExactlyIllFormed : Prop :=
  ∀ i : Instr, encode i = none ↔ i.wf = false

/-- R73, R75, R77: every decoded instruction is well-formed, and its canonical word keeps the opcode and decodes to
it; so a word and its canonical form are one instruction. -/
def Obligations.DecodedInstrHasCanonicalWord : Prop :=
  ∀ (w : Word) (i : Instr), decodeInstr w = .run i →
    i.wf = true ∧ ∃ v, encode i = some v ∧ bits v 31 28 = bits w 31 28 ∧ decodeInstr v = .run i

/-- R69 to R73: words written out from the encodings, one of each family. -/
def Obligations.WrittenWordsDecode : Prop :=
  decodeInstr 0x0FFFFE53 = .run (.cmov 1 2 3) ∧
  decodeInstr 0x10000153 = .run (.sload 5 2 3) ∧
  decodeInstr 0x2000009C = .run (.sstore 2 3 4) ∧
  decodeInstr 0x30000125 = .run (.add 4 4 5) ∧
  decodeInstr 0x7FFFFFFF = .run .halt ∧
  decodeInstr 0xC0000038 = .run (.loadp 7 0) ∧
  decodeInstr 0xDE000001 = .run (.li 7 1) ∧
  decodeInstr 0xE0000000 = .invalidOpcode 14

/-! ### The step -/

/-- R86: a running core whose word at `pc` decodes to an instruction runs exactly it, from the state in which `pc` is
advanced by one. That the increment never wraps (R18) rests on a segment's length being a `Word32` (log 31, the model's
deduction). -/
def Obligations.StepRunsDecodedInstruction : Prop :=
  ∀ (s : State) (w : Word) (i : Instr),
    s.runState = .running → s.mem.wordAt 0 s.pc = some w → decodeInstr w = .run i →
    step s = exec i (s.setPc (s.pc + 1)) ∧ (s.pc + 1).toNat = s.pc.toNat + 1

/-- R74: a word whose opcode is 14 or 15 aborts the run with `InvalidOpcode`, whatever its other bits, and performs no
operation; `pc` is as fetch left it (R19). That the outcome is `ABORTED` and not a clean halt is the spec's own decision D23 (C3,
log 29), and that nothing else changes its decision D12 (R110, log 14). -/
def Obligations.InvalidOpcodeAborts : Prop :=
  ∀ (s : State) (w : Word),
    s.runState = .running → s.mem.wordAt 0 s.pc = some w → bits w 31 28 = 14 ∨ bits w 31 28 = 15 →
    ∃ t, step s = .next t ∧ Aborts .invalidOpcode (s.setPc (s.pc + 1)) t

/-- R87: at the end of segment 0 the step is a clean halt that changes nothing else. -/
def Obligations.StreamExhaustionHalts : Prop :=
  ∀ s : State, s.runState = .running → s.mem.lenAt 0 = some s.pc →
    ∃ t, step s = .next t ∧ Halts .exhausted s t

/-- R89, as the model renders "no step is enabled" (log 1, the model's choice): from a terminal state every run of steps
leaves the state as it is. -/
def Obligations.TerminalStatesAbsorb : Prop :=
  ∀ (s : State) (k : Nat), s.runState = .halted ∨ s.runState = .aborted → core.run k s = .next s

/-- R19: what an instruction leaves in `pc`. LOADP sets its target on success; a fatal error and every other instruction
leave `pc` as fetch left it, whenever IN can take its step (R90). -/
def Obligations.OnlyLoadProgramSetsPc : Prop :=
  ∀ (i : Instr) (s t : State), exec i s = .next t → s.runState = .running →
    (t.runState = .aborted → t.pc = s.pc) ∧
    (∀ b c, i = .loadp b c → t.runState ≠ .aborted → t.pc = s.reg c) ∧
    ((∀ b c, i ≠ .loadp b c) → (∀ c, i = .inp c → ¬ s.inputNotReady) → t.pc = s.pc)

/-- R110 and D12 (the spec's own decision), R67, R108: a step that aborts changes nothing but `pc`, which is fetch's,
and the two fields R107 names, and the kind is one a step can raise. -/
def Obligations.FatalErrorsArePrecise : Prop :=
  ∀ s t : State, s.runState = .running → step s = .next t → t.runState = .aborted →
    t.errKind ∈ stepKinds ∧
    t = { s with pc := s.pc + 1, runState := .aborted, errKind := t.errKind }

/-- R108: which instructions raise which kind. -/
def Obligations.ErrorKindsByInstruction : Prop :=
  ∀ (i : Instr) (s t : State), exec i s = .next t → s.runState = .running → t.runState = .aborted →
    (t.errKind = .invalidSegment ∧
      ((∃ a b c, i = .sload a b c) ∨ (∃ a b c, i = .sstore a b c) ∨ (∃ c, i = .free c) ∨ ∃ b c, i = .loadp b c)) ∨
    (t.errKind = .outOfBounds ∧
      ((∃ a b c, i = .sload a b c) ∨ (∃ a b c, i = .sstore a b c) ∨ ∃ b c, i = .loadp b c)) ∨
    (t.errKind = .divideByZero ∧ ∃ a b c, i = .div a b c ∧ s.reg c = 0) ∨
    (t.errKind = .outputRange ∧ ∃ c, i = .out c ∧ 256 ≤ (s.reg c).toNat) ∨
    (t.errKind = .resourceExhausted ∧ ∃ b c, i = .alloc b c)

/-- R85: a running core halts in a step exactly when the stream is exhausted or the word at `pc` is a HALT. -/
def Obligations.HaltsOnlyOnHaltOrExhaustion : Prop :=
  ∀ s t : State, s.runState = .running → step s = .next t →
    (t.runState = .halted ↔
      (s.mem.lenAt 0 = some s.pc ∨ ∃ w, s.mem.wordAt 0 s.pc = some w ∧ decodeInstr w = .run .halt))

/-- The word placed where the next step fetches (log 27, the model's own) is what that step runs. -/
def Obligations.PlacedWordIsRun : Prop :=
  ∀ (s : State) (w : Word) (i : Instr), decodeInstr w = .run i →
    step (s.withFetchWord 32 w.toNat) =
      exec i ((s.withFetchWord 32 w.toNat).setPc ((s.withFetchWord 32 w.toNat).pc + 1))

/-! ### Conditional move and segment access -/

/-- R93. -/
def Obligations.CmovResult : Prop :=
  FormatR 0 .cmov true true true ∧
  ∀ (a b c : Reg) (s : State),
    ∃ t, exec (.cmov a b c) s = .next t ∧
      (s.reg c ≠ 0 → t.reg a = s.reg b ∧ OnlyRegs [a] s t) ∧
      (s.reg c = 0 → OnlyRegs [] s t)

/-- R94 (and R41): the word is loaded when the segment is live and the offset below its length; otherwise the run aborts,
liveness being checked before bounds. -/
def Obligations.SloadResult : Prop :=
  FormatR 1 .sload true true true ∧
  ∀ (a b c : Reg) (s : State),
    (∀ v, s.mem.wordAt (s.reg b) (s.reg c) = some v →
      ∃ t, exec (.sload a b c) s = .next t ∧ t.reg a = v ∧ OnlyRegs [a] s t) ∧
    (∀ n, s.mem.lenAt (s.reg b) = some n → s.reg c < n →
      ∃ v, s.mem.wordAt (s.reg b) (s.reg c) = some v) ∧
    (s.mem.lenAt (s.reg b) = none →
      ∃ t, exec (.sload a b c) s = .next t ∧ Aborts .invalidSegment s t) ∧
    (∀ n, s.mem.lenAt (s.reg b) = some n → n ≤ s.reg c →
      ∃ t, exec (.sload a b c) s = .next t ∧ Aborts .outOfBounds s t)

/-- R95 (and R42): the one word is stored when the segment is live and the offset below its length, no other word and no
length changes; otherwise the run aborts and memory is unchanged. -/
def Obligations.SstoreResult : Prop :=
  FormatR 2 .sstore true true true ∧
  ∀ (a b c : Reg) (s : State),
    (∀ n, s.mem.lenAt (s.reg a) = some n → s.reg b < n →
      ∃ t, exec (.sstore a b c) s = .next t ∧
        t.mem.wordAt (s.reg a) (s.reg b) = some (s.reg c) ∧
        SameMemoryBut (fun i o => i = s.reg a ∧ o = s.reg b) s t ∧
        SameRegs [] s t ∧ SameStatus s t ∧ t.out = s.out ∧ SameInput s t ∧ t.pc = s.pc ∧ t.config = s.config) ∧
    (s.mem.lenAt (s.reg a) = none →
      ∃ t, exec (.sstore a b c) s = .next t ∧ Aborts .invalidSegment s t) ∧
    (∀ n, s.mem.lenAt (s.reg a) = some n → n ≤ s.reg b →
      ∃ t, exec (.sstore a b c) s = .next t ∧ Aborts .outOfBounds s t)

/-! ### Arithmetic and logic -/

/-- R96. -/
def Obligations.AddResult : Prop :=
  FormatR 3 .add true true true ∧
  ∀ (a b c : Reg) (s : State), ∃ t, exec (.add a b c) s = .next t ∧
    (t.reg a).toNat = ((s.reg b).toNat + (s.reg c).toNat) % 2 ^ 32 ∧ OnlyRegs [a] s t

/-- R97. -/
def Obligations.MulResult : Prop :=
  FormatR 4 .mul true true true ∧
  ∀ (a b c : Reg) (s : State), ∃ t, exec (.mul a b c) s = .next t ∧
    (t.reg a).toNat = ((s.reg b).toNat * (s.reg c).toNat) % 2 ^ 32 ∧ OnlyRegs [a] s t

/-- R98: the floor of the unsigned quotient, and `DivideByZero` before any write when the divisor is 0. -/
def Obligations.DivResult : Prop :=
  FormatR 5 .div true true true ∧
  ∀ (a b c : Reg) (s : State),
    (s.reg c ≠ 0 → ∃ t, exec (.div a b c) s = .next t ∧
      (t.reg a).toNat = (s.reg b).toNat / (s.reg c).toNat ∧ OnlyRegs [a] s t) ∧
    (s.reg c = 0 → ∃ t, exec (.div a b c) s = .next t ∧ Aborts .divideByZero s t)

/-- R99, bit by bit. -/
def Obligations.NandResult : Prop :=
  FormatR 6 .nand true true true ∧
  ∀ (a b c : Reg) (s : State), ∃ t, exec (.nand a b c) s = .next t ∧
    (∀ j < 32, (t.reg a).getLsbD j = !((s.reg b).getLsbD j && (s.reg c).getLsbD j)) ∧ OnlyRegs [a] s t

/-- R106, and its encoding, R71. -/
def Obligations.LoadImmediateResult : Prop :=
  (∀ w : Word, bits w 31 28 = 13 → decodeInstr w = .run (.li (regBits w 25) (BitVec.ofNat 32 (bits w 24 0)))) ∧
  (∀ (a : Reg) (imm : Word), imm.toNat < 2 ^ 25 →
    encode (.li a imm) = some (BitVec.ofNat 32 (13 * 2 ^ 28 + a.val * 2 ^ 25 + imm.toNat))) ∧
  ∀ (a : Reg) (imm : Word) (s : State), ∃ t, exec (.li a imm) s = .next t ∧
    t.reg a = imm ∧ OnlyRegs [a] s t

/-! ### Halt and segment management -/

/-- R100. -/
def Obligations.HaltResult : Prop :=
  FormatR 7 (fun _ _ _ => .halt) false false false ∧
  ∀ s : State, ∃ t, exec .halt s = .next t ∧ Halts .haltInstr s t

/-- R101, R44 (with D9, D17, the spec's own decisions): the index is the top of the pool, or `N` when the pool is empty; the new
segment holds exactly the words asked for, each 0; every other segment, and the rest of the state, is unchanged. -/
def Obligations.AllocResult : Prop :=
  FormatR 8 (fun _ b c => .alloc b c) false true true ∧
  ∀ (b c : Reg) (s : State), s.mem.Sound → allocAdmits s (s.reg c) = true →
    ¬ (s.mem.pool = [] ∧ s.mem.slots = 2 ^ 32) →
    ∃ t, exec (.alloc b c) s = .next t ∧
      (∀ i rest, s.mem.pool = i :: rest →
        t.reg b = i ∧ t.mem.pool = rest ∧ t.mem.slots = s.mem.slots) ∧
      (s.mem.pool = [] →
        (t.reg b).toNat = s.mem.slots ∧ t.mem.pool = [] ∧ t.mem.slots = s.mem.slots + 1) ∧
      t.reg b ≠ 0 ∧ s.mem.lenAt (t.reg b) = none ∧
      t.mem.lenAt (t.reg b) = some (s.reg c) ∧
      (∀ o, o < s.reg c → t.mem.wordAt (t.reg b) o = some 0) ∧
      (∀ i, i ≠ t.reg b → t.mem.lenAt i = s.mem.lenAt i ∧ ∀ o, t.mem.wordAt i o = s.mem.wordAt i o) ∧
      SameRegs [b] s t ∧ SameStatus s t ∧ t.out = s.out ∧ SameInput s t ∧ t.pc = s.pc ∧ t.config = s.config

/-- R101, R44 and D9 (the spec's own decision): ALLOC aborts with `ResourceExhausted`, changing nothing, when the request is not
admitted or no new index fits a register. -/
def Obligations.AllocExhausts : Prop :=
  ∀ (b c : Reg) (s : State),
    allocAdmits s (s.reg c) = false ∨ (s.mem.pool = [] ∧ s.mem.slots = 2 ^ 32) →
    ∃ t, exec (.alloc b c) s = .next t ∧ Aborts .resourceExhausted s t

/-- R102, R45 (with D6 and D19, the spec's own decisions): a live index other than 0 becomes Unmapped and the top of the pool;
0 and an index that is not live abort with `InvalidSegment`. -/
def Obligations.FreeResult : Prop :=
  FormatR 9 (fun _ _ c => .free c) false false true ∧
  ∀ (c : Reg) (s : State),
    (s.reg c ≠ 0 → s.mem.live (s.reg c) = true →
      ∃ t, exec (.free c) s = .next t ∧
        t.mem.live (s.reg c) = false ∧ t.mem.pool = s.reg c :: s.mem.pool ∧ t.mem.slots = s.mem.slots ∧
        (∀ i, i ≠ s.reg c → t.mem.lenAt i = s.mem.lenAt i ∧ ∀ o, t.mem.wordAt i o = s.mem.wordAt i o) ∧
        SameRegs [] s t ∧ SameStatus s t ∧ t.out = s.out ∧ SameInput s t ∧ t.pc = s.pc ∧ t.config = s.config) ∧
    (s.reg c = 0 ∨ s.mem.live (s.reg c) = false →
      ∃ t, exec (.free c) s = .next t ∧ Aborts .invalidSegment s t)

/-! ### Ports -/

/-- R103, R118 (with D4 and D16, the spec's own decisions): a value below 256 is appended to `OUT` as a byte; a wider one aborts
with `OutputRange` or has no effect, as `OUT_WIDE_POLICY` says. -/
def Obligations.OutResult : Prop :=
  FormatR 10 (fun _ _ c => .out c) false false true ∧
  ∀ (c : Reg) (s : State),
    ((s.reg c).toNat < 256 →
      ∃ t b, exec (.out c) s = .next t ∧ t.out = s.out ++ [b] ∧ b.toNat = (s.reg c).toNat ∧
        SameRegs [] s t ∧ SameMemory s t ∧ SameStatus s t ∧ SameInput s t ∧ t.pc = s.pc ∧ t.config = s.config) ∧
    (256 ≤ (s.reg c).toNat → s.config.outWidePolicy = .abort →
      ∃ t, exec (.out c) s = .next t ∧ Aborts .outputRange s t) ∧
    (256 ≤ (s.reg c).toNat → s.config.outWidePolicy = .ignore →
      ∃ t, exec (.out c) s = .next t ∧ OnlyRegs [] s t)

/-- R104, R119 under the default input model (D15, the spec's own decision): the next byte of `INPUT`, zero-extended, or
all-ones at its end, again and again. -/
def Obligations.InResultFromSequence : Prop :=
  FormatR 11 (fun _ _ c => .inp c) false false true ∧
  ∀ (c : Reg) (s : State), s.port = .sequence →
    ∃ t, exec (.inp c) s = .next t ∧
      (∀ b, s.input[s.inpos]? = some b → (t.reg c).toNat = b.toNat ∧ t.inpos = s.inpos + 1) ∧
      (s.input.length ≤ s.inpos → (t.reg c).toNat = 2 ^ 32 - 1 ∧ t.inpos = s.inpos) ∧
      SameRegs [c] s t ∧ SameMemory s t ∧ SameStatus s t ∧ t.out = s.out ∧ t.input = s.input ∧
      t.port = s.port ∧ t.pc = s.pc ∧ t.config = s.config

/-- R104, R119 under the interactive model (D15): IN takes the host's answer, whatever it is. The list of answers, and
that `INPUT` and `inpos` do not move, are the model's choice (logs 7 and 36). -/
def Obligations.InResultInteractive : Prop :=
  ∀ (c : Reg) (s : State) (answer : PortAnswer) (rest : List PortAnswer),
    s.port = .interactive (answer :: rest) → answer ≠ .notReady →
    ∃ t, exec (.inp c) s = .next t ∧
      (∀ b, answer = .byte b → (t.reg c).toNat = b.toNat) ∧
      (answer = .eof → (t.reg c).toNat = 2 ^ 32 - 1) ∧
      t.port = .interactive rest ∧ t.input = s.input ∧ t.inpos = s.inpos ∧
      SameRegs [c] s t ∧ SameMemory s t ∧ SameStatus s t ∧ t.out = s.out ∧ t.pc = s.pc ∧ t.config = s.config

/-- R90 (the wait as a step that changes nothing is the model's, log 7): while the port is not ready a running core at an IN
keeps its whole state, and of the host's answers exactly the one `notReady` is taken, if any is left. -/
def Obligations.InputWaitKeepsState : Prop :=
  ∀ (s : State) (w : Word) (c : Reg),
    s.runState = .running → s.mem.wordAt 0 s.pc = some w → decodeInstr w = .run (.inp c) →
    s.inputNotReady →
    step s = .next { s with port := (receive s).2.port } ∧
    ((s.port = .interactive [] ∧ (receive s).2.port = .interactive []) ∨
      ∃ rest, s.port = .interactive (.notReady :: rest) ∧ (receive s).2.port = .interactive rest)

/-! ### Load program -/

/-- R105, R46 (with D8, the spec's own decision): LOADP with index 0 sets `pc` alone, for a target up to the length of
segment 0, and aborts beyond it. -/
def Obligations.LoadProgramJumps : Prop :=
  FormatR 12 (fun _ b c => .loadp b c) false true true ∧
  ∀ (b c : Reg) (s : State) (n : Word), s.reg b = 0 → s.mem.lenAt 0 = some n →
    (s.reg c ≤ n →
      ∃ t, exec (.loadp b c) s = .next t ∧ t.pc = s.reg c ∧
        SameRegs [] s t ∧ SameMemory s t ∧ SameStatus s t ∧ t.out = s.out ∧ SameInput s t ∧
        t.config = s.config) ∧
    (n < s.reg c → ∃ t, exec (.loadp b c) s = .next t ∧ Aborts .outOfBounds s t)

/-- R105, R46 (with D7, D8 and D26, the spec's own decisions): LOADP with another index makes segment 0 a copy of that
segment and sets `pc`; the source segment, every other segment, the pool and `N` are unchanged; an index that is not live or
a target beyond the copy aborts. -/
def Obligations.LoadProgramInstalls : Prop :=
  ∀ (b c : Reg) (s : State), s.reg b ≠ 0 →
    (∀ n, s.mem.lenAt (s.reg b) = some n → s.reg c ≤ n →
      ∃ t, exec (.loadp b c) s = .next t ∧ t.pc = s.reg c ∧ t.mem.lenAt 0 = some n ∧
        (∀ o, t.mem.wordAt 0 o = s.mem.wordAt (s.reg b) o) ∧
        (∀ i, i ≠ 0 → t.mem.lenAt i = s.mem.lenAt i ∧ ∀ o, t.mem.wordAt i o = s.mem.wordAt i o) ∧
        t.mem.pool = s.mem.pool ∧ t.mem.slots = s.mem.slots ∧
        SameRegs [] s t ∧ SameStatus s t ∧ t.out = s.out ∧ SameInput s t ∧ t.config = s.config) ∧
    (s.mem.lenAt (s.reg b) = none →
      ∃ t, exec (.loadp b c) s = .next t ∧ Aborts .invalidSegment s t) ∧
    (∀ n, s.mem.lenAt (s.reg b) = some n → n < s.reg c →
      ∃ t, exec (.loadp b c) s = .next t ∧ Aborts .outOfBounds s t)

/-! ### Memory across instructions -/

/-- R44, R45 and the source's testable property (95_test_vectors.md, W2): a segment freed and the next one allocated share the
index, and no word of the old one is left. -/
def Obligations.AllocReusesLastFreed : Prop :=
  ∀ (b c d : Reg) (s t u : State),
    exec (.free c) s = .next t → s.runState = .running → t.runState = .running →
    exec (.alloc b d) t = .next u → u.runState = .running →
    u.reg b = s.reg c ∧ u.mem.pool = s.mem.pool ∧ u.mem.lenAt (u.reg b) = some (t.reg d) ∧
    ∀ o, o < t.reg d → u.mem.wordAt (u.reg b) o = some 0

/-- R102, R40: once an index is freed, SLOAD, SSTORE, FREE and LOADP that name it abort with `InvalidSegment`. -/
def Obligations.UseAfterFreeAborts : Prop :=
  ∀ (c : Reg) (s t : State),
    exec (.free c) s = .next t → s.runState = .running → t.runState = .running →
    ∀ (a d e : Reg), t.reg d = s.reg c →
      (∃ u, exec (.sload a d e) t = .next u ∧ Aborts .invalidSegment t u) ∧
      (∃ u, exec (.sstore d a e) t = .next u ∧ Aborts .invalidSegment t u) ∧
      (∃ u, exec (.free d) t = .next u ∧ Aborts .invalidSegment t u) ∧
      (∃ u, exec (.loadp d e) t = .next u ∧ Aborts .invalidSegment t u)

/-- R58, R130 (derived by the spec): a store into segment 0 is what a later fetch of that offset reads, with nothing
between. -/
def Obligations.StoreIsSeenByFetch : Prop :=
  ∀ (a b c : Reg) (s t : State) (i : Instr),
    exec (.sstore a b c) s = .next t → s.runState = .running → t.runState = .running →
    s.reg a = 0 → t.pc = s.reg b → decodeInstr (s.reg c) = .run i →
    step t = exec i (t.setPc (t.pc + 1))

/-- R58 (derived by the spec): after LOADP from another index, segment 0 and its source are independent copies: a store into
either leaves every word of the other. -/
def Obligations.InstalledCopyIsIndependent : Prop :=
  ∀ (b c a d e : Reg) (s t u : State),
    exec (.loadp b c) s = .next t → s.runState = .running → t.runState = .running → s.reg b ≠ 0 →
    exec (.sstore a d e) t = .next u →
    (t.reg a = s.reg b → ∀ o, u.mem.wordAt 0 o = s.mem.wordAt (s.reg b) o) ∧
    (t.reg a = 0 → ∀ o, u.mem.wordAt (s.reg b) o = s.mem.wordAt (s.reg b) o)

/-! ### The whole machine -/

/-- R33: the invariants hold after every step that starts where they hold. -/
def Obligations.StepKeepsInvariants : Prop :=
  ∀ s t : State, s.Inv → step s = .next t → t.Inv

/-- R33, R34: the invariants hold at reset. -/
def Obligations.ResetMeetsInvariants : Prop := State.reset.Inv

/-- R33, R124: the invariants hold after every launch, of any image. -/
def Obligations.LaunchMeetsInvariants : Prop :=
  ∀ (config : Config) (image input : List Byte) (port : InputPort) (s : State),
    launch config image input port = some s → s.Inv

/-- R29, R47 ("Fetch never fails"): no run from a launch meets a fault (log 23) or a refusal; every step answers a next state, for
any number of steps. That a terminal state and an IN that waits answer one too, where the spec enables no step (R89, R90), is the
model's choice (logs 1 and 7). -/
def Obligations.NoRunFromLaunchStops : Prop :=
  ∀ (config : Config) (image input : List Byte) (port : InputPort) (s : State) (k : Nat),
    launch config image input port = some s → ∃ t, core.run k s = .next t ∧ State.Inv t

/-- The canonical form of memory (log 8, the model's own) is kept by every step, from every state that has it, whether a
run reaches that state or not. -/
def Obligations.StepKeepsMemoryCanonical : Prop :=
  ∀ s t : State, s.mem.wf = true → step s = .next t → t.mem.wf = true

/-- R17 (derived by the spec): the register each instruction may write; every other register keeps its value. -/
def Obligations.RegistersWrittenByInstruction : Prop :=
  ∀ (i : Instr) (s t : State), exec i s = .next t →
    match i with
    | .cmov a _ c => SameRegs [a] s t ∧ (s.reg c = 0 → SameRegs [] s t)
    | .sload a _ _ => SameRegs [a] s t
    | .sstore _ _ _ => SameRegs [] s t
    | .add a _ _ => SameRegs [a] s t
    | .mul a _ _ => SameRegs [a] s t
    | .div a _ _ => SameRegs [a] s t
    | .nand a _ _ => SameRegs [a] s t
    | .halt => SameRegs [] s t
    | .alloc b _ => SameRegs [b] s t
    | .free _ => SameRegs [] s t
    | .out _ => SameRegs [] s t
    | .inp c => SameRegs [c] s t
    | .loadp _ _ => SameRegs [] s t
    | .li a _ => SameRegs [a] s t

/-- R36, R26, R27, R32: memory is changed by SSTORE, ALLOC, FREE and LOADP only, `OUT` is only appended to and by OUT only, the
input is taken by IN only, and no step changes `INPUT` or the launch parameters. -/
def Obligations.EffectsByInstruction : Prop :=
  ∀ (i : Instr) (s t : State), exec i s = .next t →
    ((∀ a b c, i ≠ .sstore a b c) → (∀ b c, i ≠ .alloc b c) → (∀ c, i ≠ .free c) → (∀ b c, i ≠ .loadp b c) →
      SameMemory s t) ∧
    ((∀ c, i ≠ .out c) → t.out = s.out) ∧ (∀ c, i = .out c → t.out = s.out ∨ ∃ b, t.out = s.out ++ [b]) ∧
    ((∀ c, i ≠ .inp c) → SameInput s t) ∧ t.input = s.input ∧ t.config = s.config

/-- R28: the slot count never decreases, and only ALLOC raises it, by one, when the pool is empty. -/
def Obligations.SlotsOnlyGrow : Prop :=
  ∀ s t : State, step s = .next t →
    t.mem.slots = s.mem.slots ∨
    (t.mem.slots = s.mem.slots + 1 ∧ s.mem.pool = [] ∧
      ∃ w b c, s.mem.wordAt 0 s.pc = some w ∧ decodeInstr w = .run (.alloc b c))

/-- R29: a segment other than segment 0 is never resized: live before and after a step, it has one length. -/
def Obligations.LiveSegmentsKeepTheirLength : Prop :=
  ∀ (s t : State) (i m n : Word), s.Inv → step s = .next t → i ≠ 0 →
    s.mem.lenAt i = some m → t.mem.lenAt i = some n → n = m

/-- R82: no instruction but IN depends on the input. Two states that differ in `INPUT` and the port alone go on to differ in
them alone, under every `ALLOC_ADMIT`. The same holds of the input position, which R14 counts in `S`, but for an ALLOC whose
uninterpreted `ALLOC_ADMIT(n, S)` may read it (log 4). -/
def Obligations.OnlyInReadsTheInput : Prop :=
  ∀ (i : Instr) (s t : State) (input : List Byte) (inpos : Nat) (port : InputPort),
    (∀ c, i ≠ .inp c) → exec i s = .next t →
    exec i { s with input := input, port := port } = .next { t with input := input, port := port } ∧
    (s.config.allocAdmit ≠ .uninterpreted ∨ (∀ b c, i ≠ .alloc b c) →
      exec i { s with input := input, inpos := inpos, port := port } =
        .next { t with input := input, inpos := inpos, port := port })
end

