-- ==== Sys2Proof/Laws/Codec.lean ====
section
/-! SUPPORT. The codec bit by bit, its fields as arithmetic on the word's number, and the two encodings as sums. -/

namespace Sys2Proof.Machine

/-! ### Bit by bit (R64, R65) -/

theorem codecField_testBit (w : CodecWord) (width lsb j : Nat) :
    (codecField w width lsb).testBit j = (decide (j < width) && w.getLsbD (lsb + j)) := by
  simp [codecField, Nat.testBit_mod_two_pow, Nat.testBit_shiftRight, BitVec.getLsbD]

theorem codecField_lt (w : CodecWord) (width lsb : Nat) : codecField w width lsb < 2 ^ width :=
  Nat.mod_lt _ (Nat.two_pow_pos width)

theorem codecMask_getLsbD (width lsb j : Nat) (hj : j < 64) :
    (codecMask width lsb).getLsbD j = decide (lsb ≤ j ∧ j < lsb + width) := by
  simp only [codecMask, BitVec.getLsbD_shiftLeft, BitVec.getLsbD_ofNat, Nat.testBit_two_pow_sub_one, hj]
  by_cases h : j < lsb
  · simp [h, Nat.not_le.2 h]
  · have h' : lsb ≤ j := Nat.not_lt.1 h
    by_cases hw : j < lsb + width
    · simp [h, h', hw, show j - lsb < width by omega, show j - lsb < 64 by omega]
    · simp [h, hw, show ¬ j - lsb < width by omega]

theorem codecInsert_getLsbD (w : CodecWord) (width lsb v j : Nat) (hv : v < 2 ^ width) (hj : j < 64) :
    (codecInsert w width lsb v).getLsbD j =
      if lsb ≤ j ∧ j < lsb + width then v.testBit (j - lsb) else w.getLsbD j := by
  simp only [codecInsert, BitVec.getLsbD_or, BitVec.getLsbD_and, BitVec.getLsbD_not, hj,
    codecMask_getLsbD _ _ _ hj, BitVec.getLsbD_shiftLeft, BitVec.getLsbD_ofNat]
  by_cases h : j < lsb
  · simp [h, Nat.not_le.2 h]
  · have h' : lsb ≤ j := Nat.not_lt.1 h
    have h64 : j - lsb < 64 := by omega
    by_cases hw : j < lsb + width
    · simp [h, h', hw, h64]
    · have : v.testBit (j - lsb) = false :=
        Nat.testBit_lt_two_pow (hv.trans_le (Nat.pow_le_pow_right (by decide) (by omega)))
      simp [h, hw, this]

/-! ### As arithmetic -/

theorem wordField_eq (w : Word) (width lsb : Nat) : wordField w width lsb = w.toNat / 2 ^ lsb % 2 ^ width := by
  have h : w.toNat < 2 ^ 64 := w.isLt.trans (by decide)
  rw [wordField, codecField, BitVec.toNat_setWidth, Nat.mod_eq_of_lt h, Nat.shiftRight_eq_div_pow]

theorem wordField_opcode (w : Word) : wordField w 4 28 = bits w 31 28 := wordField_eq w 4 28

theorem wordField_imm (w : Word) : wordField w 25 0 = bits w 24 0 := wordField_eq w 25 0

theorem selector_eq (w : Word) (lsb : Nat) : selector w lsb = regBits w lsb := by
  simp [selector, regBits, bits, wordField_eq, show lsb + 2 + 1 - lsb = 3 by omega]

theorem bits_opcode_lt (w : Word) : bits w 31 28 < 16 := Nat.mod_lt _ (by decide)

/-- The decoder, read as R8, R70 and R71 number the bits. -/
theorem decode_eq (w : Word) :
    decode w =
      if bits w 31 28 = 13 then .loadImm (regBits w 25) (BitVec.ofNat 32 (bits w 24 0))
      else if h : bits w 31 28 < 13 then .op ⟨bits w 31 28, h⟩ (regBits w 6) (regBits w 3) (regBits w 0)
      else .invalid (bits w 31 28) := by
  simp only [decode, wordField_opcode, wordField_imm, selector_eq]

/-! ### Insertion into cleared low bits -/

/-- A field placed where it and everything below it is 0 adds its value, shifted. -/
theorem codecInsert_toNat (w : CodecWord) (width lsb v : Nat) (hlen : width + lsb ≤ 64) (hv : v < 2 ^ width)
    (hw : w.toNat % 2 ^ (width + lsb) = 0) :
    (codecInsert w width lsb v).toNat = w.toNat + v * 2 ^ lsb := by
  have hvl : v * 2 ^ lsb < 2 ^ (width + lsb) := by
    rw [Nat.pow_add]
    exact Nat.mul_lt_mul_of_pos_right hv (Nat.two_pow_pos lsb)
  obtain ⟨q, hq⟩ : ∃ q, w.toNat = 2 ^ (width + lsb) * q := ⟨_, (Nat.mul_div_cancel' (Nat.dvd_of_mod_eq_zero hw)).symm⟩
  rw [hq, Nat.two_pow_add_eq_or_of_lt hvl]
  refine Nat.eq_of_testBit_eq fun j => ?_
  rw [Nat.testBit_or, ← hq]
  by_cases hj : j < 64
  · change (codecInsert w width lsb v).getLsbD j = _
    rw [codecInsert_getLsbD _ _ _ _ _ hv hj, Nat.testBit_mul_two_pow]
    have hlow : j < width + lsb → w.toNat.testBit j = false := fun h => by
      rw [hq, Nat.testBit_two_pow_mul]
      simp [Nat.not_le.2 h]
    by_cases h1 : lsb ≤ j
    · by_cases h2 : j < lsb + width
      · simp [h1, h2, hlow (by omega)]
      · have : v.testBit (j - lsb) = false :=
          Nat.testBit_lt_two_pow (hv.trans_le (Nat.pow_le_pow_right (by decide) (by omega)))
        simp [h1, h2, this, BitVec.getLsbD]
    · simp [h1, BitVec.getLsbD]
  · have h64 : 2 ^ 64 ≤ 2 ^ j := Nat.pow_le_pow_right (by decide) (Nat.not_lt.1 hj)
    rw [Nat.testBit_lt_two_pow ((codecInsert w width lsb v).isLt.trans_le h64),
      Nat.testBit_lt_two_pow (w.isLt.trans_le h64),
      Nat.testBit_lt_two_pow (hvl.trans_le ((Nat.pow_le_pow_right (by decide) hlen).trans h64))]
    rfl

theorem newu_toNat (w : CodecWord) (width lsb v : Nat) (hlen : width + lsb ≤ 64) (hv : v < 2 ^ width)
    (hw : w.toNat % 2 ^ (width + lsb) = 0) :
    ∃ r, newu w width lsb v = some r ∧ r.toNat = w.toNat + v * 2 ^ lsb :=
  ⟨_, by simp [newu, Nat.not_lt.2 hlen, Nat.not_le.2 hv], codecInsert_toNat w width lsb v hlen hv hw⟩

/-! ### The two formats (R77) -/

theorem canonicalR_toNat {op : Nat} (hop : op < 16) (a b c : Reg) :
    (canonicalR op a b c).toNat = op * 2 ^ 28 + a.val * 2 ^ 6 + b.val * 2 ^ 3 + c.val := by
  have := a.isLt
  have := b.isLt
  have := c.isLt
  rw [canonicalR, BitVec.toNat_ofNat, Nat.mod_eq_of_lt (by omega)]

theorem encodeR_eq {op : Nat} (hop : op < 16) (a b c : Reg) : encodeR op a b c = some (canonicalR op a b c) := by
  have ha := a.isLt
  have hb := b.isLt
  have hc := c.isLt
  obtain ⟨w1, e1, n1⟩ := newu_toNat 0 4 28 op (by decide) hop (by decide)
  obtain ⟨w2, e2, n2⟩ := newu_toNat w1 3 6 a (by decide) ha (by simp at n1; omega)
  obtain ⟨w3, e3, n3⟩ := newu_toNat w2 3 3 b (by decide) hb (by simp at n1; omega)
  obtain ⟨w4, e4, n4⟩ := newu_toNat w3 3 0 c (by decide) hc (by simp at n1; omega)
  simp only [encodeR, e1, e2, e3, e4, bind, Option.bind, pure]
  congr 1
  apply BitVec.eq_of_toNat_eq
  rw [canonicalR_toNat hop, BitVec.toNat_setWidth]
  simp at n1
  omega

theorem encodeI_eq (a : Reg) {imm : Nat} (h : imm < 2 ^ 25) :
    encodeI a imm = some (BitVec.ofNat 32 (13 * 2 ^ 28 + a.val * 2 ^ 25 + imm)) := by
  have ha := a.isLt
  obtain ⟨w1, e1, n1⟩ := newu_toNat 0 4 28 13 (by decide) (by decide) (by decide)
  obtain ⟨w2, e2, n2⟩ := newu_toNat w1 3 25 a (by decide) ha (by simp at n1; omega)
  obtain ⟨w3, e3, n3⟩ := newu_toNat w2 25 0 imm (by decide) h (by simp at n1; omega)
  simp only [encodeI, e1, e2, e3, bind, Option.bind, pure]
  congr 1
  apply BitVec.eq_of_toNat_eq
  rw [BitVec.toNat_ofNat, BitVec.toNat_setWidth]
  simp at n1
  omega

theorem encodeI_eq_none (a : Reg) {imm : Nat} (h : 2 ^ 25 ≤ imm) : encodeI a imm = none := by
  obtain ⟨w1, e1, n1⟩ := newu_toNat 0 4 28 13 (by decide) (by decide) (by decide)
  obtain ⟨w2, e2, n2⟩ := newu_toNat w1 3 25 a (by decide) a.isLt (by simp at n1; omega)
  have e3 : newu w2 25 0 imm = none := by
    unfold newu
    rw [if_neg (by decide), if_pos h]
  simp only [encodeI, e1, e2, e3, bind, Option.bind]

/-! ### The fields of the canonical words -/

theorem regBits_eq_of {w : Word} {lo : Nat} {r : Reg} (h : w.toNat / 2 ^ lo % 8 = r.val) : regBits w lo = r := by
  apply Fin.ext
  simp [regBits, bits, show lo + 2 + 1 - lo = 3 by omega, h]

theorem canonicalR_opcode {op : Nat} (hop : op < 16) (a b c : Reg) : bits (canonicalR op a b c) 31 28 = op := by
  have := a.isLt
  have := b.isLt
  have := c.isLt
  simp only [bits, canonicalR_toNat hop]
  omega

/-- The canonical word of Format R decodes to its opcode and its three fields. -/
theorem decode_canonicalR {op : Nat} (hop : op < 13) (a b c : Reg) :
    decode (canonicalR op a b c) = .op ⟨op, hop⟩ a b c := by
  have h16 : op < 16 := by omega
  have ha := a.isLt
  have hb := b.isLt
  have hc := c.isLt
  have n := canonicalR_toNat h16 a b c
  have e6 : regBits (canonicalR op a b c) 6 = a := regBits_eq_of (by rw [n]; omega)
  have e3 : regBits (canonicalR op a b c) 3 = b := regBits_eq_of (by rw [n]; omega)
  have e0 : regBits (canonicalR op a b c) 0 = c := regBits_eq_of (by rw [n]; omega)
  rw [decode_eq]
  simp only [canonicalR_opcode h16, e6, e3, e0, hop, dif_pos, show op ≠ 13 by omega, if_false]

theorem decode_canonicalI (a : Reg) {imm : Word} (h : imm.toNat < 2 ^ 25) :
    decode (BitVec.ofNat 32 (13 * 2 ^ 28 + a.val * 2 ^ 25 + imm.toNat)) = .loadImm a imm := by
  have ha := a.isLt
  have n : (BitVec.ofNat 32 (13 * 2 ^ 28 + a.val * 2 ^ 25 + imm.toNat)).toNat =
      13 * 2 ^ 28 + a.val * 2 ^ 25 + imm.toNat := by
    rw [BitVec.toNat_ofNat, Nat.mod_eq_of_lt (by omega)]
  generalize BitVec.ofNat 32 (13 * 2 ^ 28 + a.val * 2 ^ 25 + imm.toNat) = w at n
  have eop : bits w 31 28 = 13 := by
    simp only [bits, n]
    omega
  have eimm : bits w 24 0 = imm.toNat := by
    simp only [bits, n]
    omega
  rw [decode_eq, if_pos eop, eimm, regBits_eq_of (r := a) (by rw [n]; omega), BitVec.ofNat_toNat,
    BitVec.setWidth_eq]

end Sys2Proof.Machine
end

