-- ==== Sys2Proof/Laws/Sparse.lean ====
section
/-! SUPPORT. Read after write, and the canonical form kept, for sparse data. -/

namespace Sys2Proof.Machine

variable {α : Type}

theorem sparseFind_insert (l : List (Nat × α)) (i j : Nat) (x : α) :
    sparseFind (sparseInsert l i x) j = if i = j then some x else sparseFind l j := by
  induction l with
  | nil => simp [sparseInsert, sparseFind]
  | cons e rest ih =>
    obtain ⟨k, v⟩ := e
    simp only [sparseInsert]
    split
    · simp [sparseFind]
    · split
      · subst_vars
        simp only [sparseFind]
        split <;> rfl
      · rename_i h
        simp only [sparseFind, ih]
        by_cases hj : k = j
        · subst hj
          simp [Ne.symm h]
        · simp [hj]

theorem sparseFind_erase (l : List (Nat × α)) (i j : Nat) :
    sparseFind (sparseErase l i) j = if i = j then none else sparseFind l j := by
  induction l with
  | nil => simp [sparseErase, sparseFind]
  | cons e rest ih =>
    obtain ⟨k, v⟩ := e
    by_cases hk : k = i
    · subst hk
      by_cases hj : k = j
      · subst hj
        simpa [sparseErase] using ih
      · simp [sparseErase, sparseFind, ih, hj]
    · by_cases hj : k = j
      · subst hj
        simp [sparseErase, sparseFind, hk, Ne.symm hk]
      · simp [sparseErase, sparseFind, ih, hk, hj]

theorem sparseRisingFrom_mono {l : List (Nat × α)} {lo hi : Nat} (h : lo ≤ hi)
    (hl : sparseRisingFrom hi l = true) : sparseRisingFrom lo l = true := by
  cases l with
  | nil => rfl
  | cons e rest =>
    simp only [sparseRisingFrom, Bool.and_eq_true, decide_eq_true_eq] at hl ⊢
    exact ⟨h.trans hl.1, hl.2⟩

theorem sparseRisingFrom_insert {l : List (Nat × α)} {lo i : Nat} (x : α) (hi : lo ≤ i)
    (hl : sparseRisingFrom lo l = true) : sparseRisingFrom lo (sparseInsert l i x) = true := by
  induction l generalizing lo with
  | nil => simpa [sparseInsert, sparseRisingFrom] using hi
  | cons e rest ih =>
    obtain ⟨k, v⟩ := e
    simp only [sparseRisingFrom, Bool.and_eq_true, decide_eq_true_eq] at hl
    simp only [sparseInsert]
    split
    · simp [sparseRisingFrom, hi, hl.2]
      omega
    · split
      · subst_vars
        simp [sparseRisingFrom, hl]
      · simp only [sparseRisingFrom, Bool.and_eq_true, decide_eq_true_eq]
        exact ⟨hl.1, ih (by omega) hl.2⟩

theorem sparseRisingFrom_erase {l : List (Nat × α)} {lo : Nat} (i : Nat)
    (hl : sparseRisingFrom lo l = true) : sparseRisingFrom lo (sparseErase l i) = true := by
  induction l generalizing lo with
  | nil => rfl
  | cons e rest ih =>
    obtain ⟨k, v⟩ := e
    simp only [sparseRisingFrom, Bool.and_eq_true, decide_eq_true_eq] at hl
    simp only [sparseErase]
    split
    · exact sparseRisingFrom_mono (by omega) (ih hl.2)
    · simp [sparseRisingFrom, hl.1, ih hl.2]

theorem sparseRising_insert {l : List (Nat × α)} (i : Nat) (x : α) (h : sparseRising l = true) :
    sparseRising (sparseInsert l i x) = true := sparseRisingFrom_insert x (Nat.zero_le i) h

theorem sparseRising_erase {l : List (Nat × α)} (i : Nat) (h : sparseRising l = true) :
    sparseRising (sparseErase l i) = true := sparseRisingFrom_erase i h

/-- Whatever holds of every entry still holds when an entry of which it holds is written. -/
theorem sparse_all_insert {l : List (Nat × α)} {i : Nat} {x : α} {p : Nat × α → Bool}
    (hl : l.all p = true) (hx : p (i, x) = true) : (sparseInsert l i x).all p = true := by
  induction l with
  | nil => simp [sparseInsert, hx]
  | cons e rest ih =>
    obtain ⟨k, v⟩ := e
    simp only [List.all_cons, Bool.and_eq_true] at hl
    simp only [sparseInsert]
    split
    · simp [hx, hl.1, hl.2]
    · split
      · simp [hx, hl.2]
      · simp only [List.all_cons, Bool.and_eq_true]
        exact ⟨hl.1, ih hl.2⟩

theorem sparse_all_erase {l : List (Nat × α)} (i : Nat) {p : Nat × α → Bool}
    (hl : l.all p = true) : (sparseErase l i).all p = true := by
  induction l with
  | nil => rfl
  | cons e rest ih =>
    simp only [List.all_cons, Bool.and_eq_true] at hl
    simp only [sparseErase]
    split
    · exact ih hl.2
    · simp [hl.1, ih hl.2]

/-- What holds of every entry holds of the one found. -/
theorem sparse_all_find {l : List (Nat × α)} {i : Nat} {x : α} {p : Nat × α → Bool}
    (hl : l.all p = true) (hx : sparseFind l i = some x) : p (i, x) = true := by
  induction l with
  | nil => simp [sparseFind] at hx
  | cons e rest ih =>
    obtain ⟨k, v⟩ := e
    simp only [List.all_cons, Bool.and_eq_true] at hl
    simp only [sparseFind] at hx
    split at hx
    · simp_all
    · exact ih hl.2 hx

theorem sparseFind_eq_none_of_below {l : List (Nat × α)} {bound i : Nat} (hl : sparseBelow bound l = true)
    (hi : bound ≤ i) : sparseFind l i = none := by
  cases h : sparseFind l i with
  | none => rfl
  | some x =>
    have := sparse_all_find hl h
    simp at this
    omega

theorem sparseBelow_mono {l : List (Nat × α)} {b c : Nat} (h : b ≤ c) (hl : sparseBelow b l = true) :
    sparseBelow c l = true := by
  simp only [sparseBelow, List.all_eq_true, decide_eq_true_eq] at hl ⊢
  exact fun e he => (hl e he).trans_le h

theorem sparseFind_none_of_rising {l : List (Nat × α)} {lo i : Nat} (hl : sparseRisingFrom lo l = true)
    (hi : i < lo) : sparseFind l i = none := by
  induction l generalizing lo with
  | nil => rfl
  | cons e rest ih =>
    obtain ⟨k, v⟩ := e
    simp only [sparseRisingFrom, Bool.and_eq_true, decide_eq_true_eq] at hl
    simp only [sparseFind]
    rw [if_neg (by omega)]
    exact ih hl.2 (by omega)

/-- Two canonical lists that answer every key alike are one list. -/
theorem sparse_ext {l m : List (Nat × α)} {lo : Nat} (hl : sparseRisingFrom lo l = true)
    (hm : sparseRisingFrom lo m = true) (h : ∀ i, sparseFind l i = sparseFind m i) : l = m := by
  induction l generalizing m lo with
  | nil =>
    cases m with
    | nil => rfl
    | cons e rest => simpa [sparseFind] using h e.1
  | cons e rest ih =>
    obtain ⟨k, v⟩ := e
    cases m with
    | nil => simpa [sparseFind] using h k
    | cons f rest' =>
      obtain ⟨k', v'⟩ := f
      simp only [sparseRisingFrom, Bool.and_eq_true, decide_eq_true_eq] at hl hm
      have hk : k = k' := by
        rcases Nat.lt_trichotomy k k' with hlt | heq | hgt
        · have := h k
          simp only [sparseFind, if_pos, if_neg (Nat.ne_of_gt hlt)] at this
          rw [sparseFind_none_of_rising hm.2 (by omega)] at this
          simp at this
        · exact heq
        · have := h k'
          simp only [sparseFind, if_pos, if_neg (Nat.ne_of_gt hgt)] at this
          rw [sparseFind_none_of_rising hl.2 (by omega)] at this
          simp at this
      subst hk
      have hv : v = v' := by simpa [sparseFind] using h k
      subst hv
      congr 1
      refine ih hl.2 hm.2 fun i => ?_
      by_cases hi : k = i
      · subst hi
        rw [sparseFind_none_of_rising hl.2 (by omega), sparseFind_none_of_rising hm.2 (by omega)]
      · simpa [sparseFind, hi] using h i

end Sys2Proof.Machine
end

