-- ==== Sys2Proof/Laws/State.lean ====
section
/-! SUPPORT. One lemma per field per update of State, so that no proof unfolds a record update. -/

namespace Sys2Proof.Machine

variable (s : State)

/-! ### setReg -/

@[simp] theorem State.setReg_regs (i : Reg) (v : Word) : (s.setReg i v).regs = s.regs.set i v := rfl
@[simp] theorem State.setReg_pc (i : Reg) (v : Word) : (s.setReg i v).pc = s.pc := rfl
@[simp] theorem State.setReg_mem (i : Reg) (v : Word) : (s.setReg i v).mem = s.mem := rfl
@[simp] theorem State.setReg_runState (i : Reg) (v : Word) : (s.setReg i v).runState = s.runState := rfl
@[simp] theorem State.setReg_haltCause (i : Reg) (v : Word) : (s.setReg i v).haltCause = s.haltCause := rfl
@[simp] theorem State.setReg_errKind (i : Reg) (v : Word) : (s.setReg i v).errKind = s.errKind := rfl
@[simp] theorem State.setReg_out (i : Reg) (v : Word) : (s.setReg i v).out = s.out := rfl
@[simp] theorem State.setReg_input (i : Reg) (v : Word) : (s.setReg i v).input = s.input := rfl
@[simp] theorem State.setReg_inpos (i : Reg) (v : Word) : (s.setReg i v).inpos = s.inpos := rfl
@[simp] theorem State.setReg_port (i : Reg) (v : Word) : (s.setReg i v).port = s.port := rfl
@[simp] theorem State.setReg_config (i : Reg) (v : Word) : (s.setReg i v).config = s.config := rfl

/-! ### setPc -/

@[simp] theorem State.setPc_regs (v : Word) : (s.setPc v).regs = s.regs := rfl
@[simp] theorem State.setPc_pc (v : Word) : (s.setPc v).pc = v := rfl
@[simp] theorem State.setPc_mem (v : Word) : (s.setPc v).mem = s.mem := rfl
@[simp] theorem State.setPc_runState (v : Word) : (s.setPc v).runState = s.runState := rfl
@[simp] theorem State.setPc_haltCause (v : Word) : (s.setPc v).haltCause = s.haltCause := rfl
@[simp] theorem State.setPc_errKind (v : Word) : (s.setPc v).errKind = s.errKind := rfl
@[simp] theorem State.setPc_out (v : Word) : (s.setPc v).out = s.out := rfl
@[simp] theorem State.setPc_input (v : Word) : (s.setPc v).input = s.input := rfl
@[simp] theorem State.setPc_inpos (v : Word) : (s.setPc v).inpos = s.inpos := rfl
@[simp] theorem State.setPc_port (v : Word) : (s.setPc v).port = s.port := rfl
@[simp] theorem State.setPc_config (v : Word) : (s.setPc v).config = s.config := rfl
@[simp] theorem State.setPc_reg (v : Word) (r : Reg) : (s.setPc v).reg r = s.reg r := rfl

/-! ### setMem -/

@[simp] theorem State.setMem_regs (m : Memory) : (s.setMem m).regs = s.regs := rfl
@[simp] theorem State.setMem_pc (m : Memory) : (s.setMem m).pc = s.pc := rfl
@[simp] theorem State.setMem_mem (m : Memory) : (s.setMem m).mem = m := rfl
@[simp] theorem State.setMem_runState (m : Memory) : (s.setMem m).runState = s.runState := rfl
@[simp] theorem State.setMem_haltCause (m : Memory) : (s.setMem m).haltCause = s.haltCause := rfl
@[simp] theorem State.setMem_errKind (m : Memory) : (s.setMem m).errKind = s.errKind := rfl
@[simp] theorem State.setMem_out (m : Memory) : (s.setMem m).out = s.out := rfl
@[simp] theorem State.setMem_input (m : Memory) : (s.setMem m).input = s.input := rfl
@[simp] theorem State.setMem_inpos (m : Memory) : (s.setMem m).inpos = s.inpos := rfl
@[simp] theorem State.setMem_port (m : Memory) : (s.setMem m).port = s.port := rfl
@[simp] theorem State.setMem_config (m : Memory) : (s.setMem m).config = s.config := rfl
@[simp] theorem State.setMem_reg (m : Memory) (r : Reg) : (s.setMem m).reg r = s.reg r := rfl

/-! ### setInpos -/

@[simp] theorem State.setInpos_regs (n : Nat) : (s.setInpos n).regs = s.regs := rfl
@[simp] theorem State.setInpos_pc (n : Nat) : (s.setInpos n).pc = s.pc := rfl
@[simp] theorem State.setInpos_mem (n : Nat) : (s.setInpos n).mem = s.mem := rfl
@[simp] theorem State.setInpos_runState (n : Nat) : (s.setInpos n).runState = s.runState := rfl
@[simp] theorem State.setInpos_haltCause (n : Nat) : (s.setInpos n).haltCause = s.haltCause := rfl
@[simp] theorem State.setInpos_errKind (n : Nat) : (s.setInpos n).errKind = s.errKind := rfl
@[simp] theorem State.setInpos_out (n : Nat) : (s.setInpos n).out = s.out := rfl
@[simp] theorem State.setInpos_input (n : Nat) : (s.setInpos n).input = s.input := rfl
@[simp] theorem State.setInpos_inpos (n : Nat) : (s.setInpos n).inpos = n := rfl
@[simp] theorem State.setInpos_port (n : Nat) : (s.setInpos n).port = s.port := rfl
@[simp] theorem State.setInpos_config (n : Nat) : (s.setInpos n).config = s.config := rfl
@[simp] theorem State.setInpos_reg (n : Nat) (r : Reg) : (s.setInpos n).reg r = s.reg r := rfl

/-! ### setPort -/

@[simp] theorem State.setPort_regs (p : InputPort) : (s.setPort p).regs = s.regs := rfl
@[simp] theorem State.setPort_pc (p : InputPort) : (s.setPort p).pc = s.pc := rfl
@[simp] theorem State.setPort_mem (p : InputPort) : (s.setPort p).mem = s.mem := rfl
@[simp] theorem State.setPort_runState (p : InputPort) : (s.setPort p).runState = s.runState := rfl
@[simp] theorem State.setPort_haltCause (p : InputPort) : (s.setPort p).haltCause = s.haltCause := rfl
@[simp] theorem State.setPort_errKind (p : InputPort) : (s.setPort p).errKind = s.errKind := rfl
@[simp] theorem State.setPort_out (p : InputPort) : (s.setPort p).out = s.out := rfl
@[simp] theorem State.setPort_input (p : InputPort) : (s.setPort p).input = s.input := rfl
@[simp] theorem State.setPort_inpos (p : InputPort) : (s.setPort p).inpos = s.inpos := rfl
@[simp] theorem State.setPort_port (p : InputPort) : (s.setPort p).port = p := rfl
@[simp] theorem State.setPort_config (p : InputPort) : (s.setPort p).config = s.config := rfl
@[simp] theorem State.setPort_reg (p : InputPort) (r : Reg) : (s.setPort p).reg r = s.reg r := rfl

/-! ### raise -/

@[simp] theorem State.raise_regs (e : ErrKind) : (s.raise e).regs = s.regs := rfl
@[simp] theorem State.raise_pc (e : ErrKind) : (s.raise e).pc = s.pc := rfl
@[simp] theorem State.raise_mem (e : ErrKind) : (s.raise e).mem = s.mem := rfl
@[simp] theorem State.raise_runState (e : ErrKind) : (s.raise e).runState = .aborted := rfl
@[simp] theorem State.raise_haltCause (e : ErrKind) : (s.raise e).haltCause = s.haltCause := rfl
@[simp] theorem State.raise_errKind (e : ErrKind) : (s.raise e).errKind = e := rfl
@[simp] theorem State.raise_out (e : ErrKind) : (s.raise e).out = s.out := rfl
@[simp] theorem State.raise_input (e : ErrKind) : (s.raise e).input = s.input := rfl
@[simp] theorem State.raise_inpos (e : ErrKind) : (s.raise e).inpos = s.inpos := rfl
@[simp] theorem State.raise_port (e : ErrKind) : (s.raise e).port = s.port := rfl
@[simp] theorem State.raise_config (e : ErrKind) : (s.raise e).config = s.config := rfl
@[simp] theorem State.raise_reg (e : ErrKind) (r : Reg) : (s.raise e).reg r = s.reg r := rfl

/-! ### halt -/

@[simp] theorem State.halt_regs (c : HaltCause) : (s.halt c).regs = s.regs := rfl
@[simp] theorem State.halt_pc (c : HaltCause) : (s.halt c).pc = s.pc := rfl
@[simp] theorem State.halt_mem (c : HaltCause) : (s.halt c).mem = s.mem := rfl
@[simp] theorem State.halt_runState (c : HaltCause) : (s.halt c).runState = .halted := rfl
@[simp] theorem State.halt_haltCause (c : HaltCause) : (s.halt c).haltCause = c := rfl
@[simp] theorem State.halt_errKind (c : HaltCause) : (s.halt c).errKind = s.errKind := rfl
@[simp] theorem State.halt_out (c : HaltCause) : (s.halt c).out = s.out := rfl
@[simp] theorem State.halt_input (c : HaltCause) : (s.halt c).input = s.input := rfl
@[simp] theorem State.halt_inpos (c : HaltCause) : (s.halt c).inpos = s.inpos := rfl
@[simp] theorem State.halt_port (c : HaltCause) : (s.halt c).port = s.port := rfl
@[simp] theorem State.halt_config (c : HaltCause) : (s.halt c).config = s.config := rfl
@[simp] theorem State.halt_reg (c : HaltCause) (r : Reg) : (s.halt c).reg r = s.reg r := rfl

/-! ### emit -/

@[simp] theorem State.emit_regs (b : Byte) : (s.emit b).regs = s.regs := rfl
@[simp] theorem State.emit_pc (b : Byte) : (s.emit b).pc = s.pc := rfl
@[simp] theorem State.emit_mem (b : Byte) : (s.emit b).mem = s.mem := rfl
@[simp] theorem State.emit_runState (b : Byte) : (s.emit b).runState = s.runState := rfl
@[simp] theorem State.emit_haltCause (b : Byte) : (s.emit b).haltCause = s.haltCause := rfl
@[simp] theorem State.emit_errKind (b : Byte) : (s.emit b).errKind = s.errKind := rfl
@[simp] theorem State.emit_out (b : Byte) : (s.emit b).out = s.out ++ [b] := rfl
@[simp] theorem State.emit_input (b : Byte) : (s.emit b).input = s.input := rfl
@[simp] theorem State.emit_inpos (b : Byte) : (s.emit b).inpos = s.inpos := rfl
@[simp] theorem State.emit_port (b : Byte) : (s.emit b).port = s.port := rfl
@[simp] theorem State.emit_config (b : Byte) : (s.emit b).config = s.config := rfl
@[simp] theorem State.emit_reg (b : Byte) (r : Reg) : (s.emit b).reg r = s.reg r := rfl

/-! ### awaitInput -/

@[simp] theorem State.awaitInput_regs : (s.awaitInput).regs = s.regs := rfl
@[simp] theorem State.awaitInput_pc : (s.awaitInput).pc = s.pc - 1 := rfl
@[simp] theorem State.awaitInput_mem : (s.awaitInput).mem = s.mem := rfl
@[simp] theorem State.awaitInput_runState : (s.awaitInput).runState = s.runState := rfl
@[simp] theorem State.awaitInput_haltCause : (s.awaitInput).haltCause = s.haltCause := rfl
@[simp] theorem State.awaitInput_errKind : (s.awaitInput).errKind = s.errKind := rfl
@[simp] theorem State.awaitInput_out : (s.awaitInput).out = s.out := rfl
@[simp] theorem State.awaitInput_input : (s.awaitInput).input = s.input := rfl
@[simp] theorem State.awaitInput_inpos : (s.awaitInput).inpos = s.inpos := rfl
@[simp] theorem State.awaitInput_port : (s.awaitInput).port = s.port := rfl
@[simp] theorem State.awaitInput_config : (s.awaitInput).config = s.config := rfl
@[simp] theorem State.awaitInput_reg (r : Reg) : (s.awaitInput).reg r = s.reg r := rfl

/-! ### The state of R14, from which `INPUT`, the port and the parameters are left out -/

@[simp] theorem State.architectural_regs : s.architectural.regs = s.regs := rfl
@[simp] theorem State.architectural_pc : s.architectural.pc = s.pc := rfl
@[simp] theorem State.architectural_mem : s.architectural.mem = s.mem := rfl
@[simp] theorem State.architectural_runState : s.architectural.runState = s.runState := rfl
@[simp] theorem State.architectural_haltCause : s.architectural.haltCause = s.haltCause := rfl
@[simp] theorem State.architectural_errKind : s.architectural.errKind = s.errKind := rfl
@[simp] theorem State.architectural_out : s.architectural.out = s.out := rfl
@[simp] theorem State.architectural_inpos : s.architectural.inpos = s.inpos := rfl
@[simp] theorem State.architectural_input : s.architectural.input = [] := rfl
@[simp] theorem State.architectural_port : s.architectural.port = .sequence := rfl
@[simp] theorem State.architectural_config : s.architectural.config = Config.default := rfl

/-- Neither `INPUT` nor the port is part of `S`. -/
theorem State.architectural_withInput (input : List Byte) (port : InputPort) :
    State.architectural { s with input := input, port := port } = s.architectural := rfl

/-! ### Registers -/

theorem State.setReg_reg (i r : Reg) (v : Word) : (s.setReg i v).reg r = if i = r then v else s.reg r := by
  simp [State.reg, State.setReg, Vector.getElem_set, Fin.ext_iff]

@[simp] theorem State.setReg_reg_same (i : Reg) (v : Word) : (s.setReg i v).reg i = v := by
  simp [State.setReg_reg]

theorem State.setReg_reg_ne (i r : Reg) (v : Word) (h : r ≠ i) : (s.setReg i v).reg r = s.reg r := by
  simp [State.setReg_reg, h.symm]

/-- Writing a register twice leaves the last value. -/
theorem State.setReg_setReg (i : Reg) (v w : Word) : (s.setReg i v).setReg i w = s.setReg i w := by
  simp [State.setReg]

end Sys2Proof.Machine
end

