-- ==== Sys2Proof/Laws/Memory.lean ====
section
/-! SUPPORT. What each memory primitive does: reads after writes, the shape of its answer, and the canonical form kept. -/

namespace Sys2Proof.Machine

theorem word_toNat_ofNat {i : Nat} (h : i < 2 ^ 32) : (BitVec.ofNat 32 i).toNat = i := by
  rw [BitVec.toNat_ofNat, Nat.mod_eq_of_lt h]

/-! ### Segments -/

@[simp] theorem Segment.zeros_len (n : Word) : (Segment.zeros n).len = n := rfl

@[simp] theorem Segment.withWord_len (g : Segment) (o v : Word) : (g.withWord o v).len = g.len := rfl

theorem Segment.wordAt_zeros (n o : Word) :
    (Segment.zeros n).wordAt o = if o < n then some 0 else none := by
  simp [Segment.wordAt, Segment.zeros, sparseFind]

theorem Segment.wordAt_isSome (g : Segment) (o : Word) : (g.wordAt o).isSome = decide (o < g.len) := by
  simp only [Segment.wordAt]
  split <;> simp_all

theorem Segment.wordAt_eq_none (g : Segment) (o : Word) : g.wordAt o = none ↔ g.len ≤ o := by
  simp only [Segment.wordAt]
  split <;> simp_all [BitVec.not_lt, BitVec.not_le]

theorem Segment.lt_len_of_wordAt {g : Segment} {o v : Word} (h : g.wordAt o = some v) : o < g.len := by
  simpa [h] using (Segment.wordAt_isSome g o).symm

/-- Read after write (R42): the word written, and no other. -/
theorem Segment.wordAt_withWord (g : Segment) (o p v : Word) :
    (g.withWord o v).wordAt p = if o = p ∧ o < g.len then some v else g.wordAt p := by
  simp only [Segment.wordAt, Segment.withWord]
  by_cases hp : p < g.len
  · by_cases ho : o = p
    · subst ho
      simp only [hp, if_true, and_self]
      split
      · simp [sparseFind_erase, *]
      · simp [sparseFind_insert]
    · have hne : o.toNat ≠ p.toNat := fun h => ho (BitVec.eq_of_toNat_eq h)
      simp only [hp, if_true, ho, false_and, if_false]
      split
      · simp [sparseFind_erase, hne]
      · simp [sparseFind_insert, hne]
  · have : ¬ (o = p ∧ o < g.len) := by
      rintro ⟨rfl, h⟩
      exact hp h
    simp [hp, this]

theorem Segment.zeros_wf (n : Word) : (Segment.zeros n).wf = true := rfl

theorem Segment.withWord_wf {g : Segment} {o : Word} (v : Word) (hg : g.wf = true) (ho : o < g.len) :
    (g.withWord o v).wf = true := by
  simp only [Segment.wf, Bool.and_eq_true, sparseBelow] at hg ⊢
  obtain ⟨⟨hr, hb⟩, hz⟩ := hg
  have ho' : o.toNat < g.len.toNat := ho
  simp only [Segment.withWord]
  split
  · exact ⟨⟨sparseRising_erase _ hr, sparse_all_erase _ hb⟩, sparse_all_erase _ hz⟩
  · exact ⟨⟨sparseRising_insert _ _ hr, sparse_all_insert hb (decide_eq_true ho')⟩,
      sparse_all_insert hz (by simpa using ‹_›)⟩

/-- Two canonical segments with the same length and the same words are one. -/
theorem Segment.ext_of_wf {g h : Segment} (hg : g.wf = true) (hh : h.wf = true) (hl : g.len = h.len)
    (hw : ∀ o, g.wordAt o = h.wordAt o) : g = h := by
  obtain ⟨n, gs⟩ := g
  obtain ⟨m, hs⟩ := h
  simp only [Segment.wf, Bool.and_eq_true] at hg hh
  obtain ⟨⟨hgr, hgb⟩, hgz⟩ := hg
  obtain ⟨⟨hhr, hhb⟩, hhz⟩ := hh
  obtain rfl : n = m := hl
  congr 1
  refine sparse_ext hgr hhr fun i => ?_
  by_cases hi : i < n.toNat
  · have hlt : i < 2 ^ 32 := hi.trans n.isLt
    have := hw (BitVec.ofNat 32 i)
    have ho : (BitVec.ofNat 32 i).toNat = i := word_toNat_ofNat hlt
    have hol : BitVec.ofNat 32 i < n := by
      rw [BitVec.lt_def, ho]
      exact hi
    simp only [Segment.wordAt, hol, if_true, ho, Option.some.injEq] at this
    cases h1 : sparseFind gs i with
    | none =>
      cases h2 : sparseFind hs i with
      | none => rfl
      | some w =>
        have hne := sparse_all_find hhz h2
        simp [h1, h2] at this
        simp [this] at hne
    | some v =>
      have hne := sparse_all_find hgz h1
      cases h2 : sparseFind hs i with
      | none =>
        simp [h1, h2] at this
        simp [this] at hne
      | some w => simpa [h1, h2] using this
  · rw [sparseFind_eq_none_of_below hgb (by simpa using hi), sparseFind_eq_none_of_below hhb (by simpa using hi)]

/-! ### Reading memory -/

theorem toNat_inj {i j : Word} : i.toNat = j.toNat ↔ i = j := BitVec.toNat_inj

theorem Memory.live_iff (m : Memory) (i : Word) : m.live i = true ↔ ∃ g, m.segment i = some g := by
  simp [Memory.live, Option.isSome_iff_exists]

theorem Memory.lt_slots_of_segment {m : Memory} {i : Word} {g : Segment} (h : m.segment i = some g) :
    i.toNat < m.slots := by
  simp only [Memory.segment] at h
  split at h
  · assumption
  · simp at h

theorem Memory.lenAt_eq_none (m : Memory) (i : Word) : m.lenAt i = none ↔ m.segment i = none := by
  simp [Memory.lenAt]

theorem Memory.lenAt_eq_some (m : Memory) (i n : Word) :
    m.lenAt i = some n ↔ ∃ g, m.segment i = some g ∧ g.len = n := by
  simp [Memory.lenAt]

theorem Memory.wordAt_eq_some (m : Memory) (i o v : Word) :
    m.wordAt i o = some v ↔ ∃ g, m.segment i = some g ∧ g.wordAt o = some v := by
  simp [Memory.wordAt, Option.bind_eq_some_iff]

theorem Memory.lenAt_congr {m m' : Memory} {i j : Word} (h : m.segment i = m'.segment j) :
    m.lenAt i = m'.lenAt j := by simp [Memory.lenAt, h]

theorem Memory.wordAt_congr {m m' : Memory} {i j : Word} (h : m.segment i = m'.segment j) (o : Word) :
    m.wordAt i o = m'.wordAt j o := by simp [Memory.wordAt, h]

/-- A live segment of a canonical memory is canonical. -/
theorem Memory.segment_wf {m : Memory} {i : Word} {g : Segment} (hm : m.wf = true)
    (hg : m.segment i = some g) : g.wf = true := by
  simp only [Memory.wf, Bool.and_eq_true] at hm
  simp only [Memory.segment] at hg
  split at hg
  · exact sparse_all_find hm.1.2 hg
  · simp at hg

/-- Two canonical memories with the same slots, pool, lengths and words are one. -/
theorem Memory.ext_of_wf {m n : Memory} (hm : m.wf = true) (hn : n.wf = true) (hb : m.slots ≤ 2 ^ 32)
    (hs : m.slots = n.slots) (hp : m.pool = n.pool) (hl : ∀ i, m.lenAt i = n.lenAt i)
    (hw : ∀ i o, m.wordAt i o = n.wordAt i o) : m = n := by
  have hseg : ∀ i, m.segment i = n.segment i := by
    intro i
    have hli := hl i
    cases h1 : m.segment i with
    | none =>
      rw [(Memory.lenAt_eq_none m i).2 h1] at hli
      exact ((Memory.lenAt_eq_none n i).1 hli.symm).symm
    | some g =>
      cases h2 : n.segment i with
      | none =>
        rw [(Memory.lenAt_eq_none n i).2 h2] at hli
        simp [(Memory.lenAt_eq_none m i).1 hli] at h1
      | some h =>
        congr 1
        refine Segment.ext_of_wf (Memory.segment_wf hm h1) (Memory.segment_wf hn h2) ?_ fun o => ?_
        · simpa [Memory.lenAt, h1, h2] using hli
        · simpa [Memory.wordAt, h1, h2] using hw i o
  obtain ⟨sl, mt, mp⟩ := m
  obtain ⟨sl', nt, np⟩ := n
  obtain rfl : sl = sl' := hs
  obtain rfl : mp = np := hp
  simp only [Memory.wf, Bool.and_eq_true] at hm hn
  congr 1
  refine sparse_ext hm.1.1.1 hn.1.1.1 fun i => ?_
  by_cases hi : i < sl
  · have hlt : i < 2 ^ 32 := hi.trans_le hb
    have := hseg (BitVec.ofNat 32 i)
    simpa only [Memory.segment, word_toNat_ofNat hlt, hi, if_true] using this
  · rw [sparseFind_eq_none_of_below hm.1.1.2 (by simpa using hi),
      sparseFind_eq_none_of_below hn.1.1.2 (by simpa using hi)]

/-! ### Mapping a segment -/

@[simp] theorem Memory.mapSegment_slots (m : Memory) (i : Nat) (g : Segment) :
    (m.mapSegment i g).slots = m.slots := rfl

@[simp] theorem Memory.mapSegment_pool (m : Memory) (i : Nat) (g : Segment) :
    (m.mapSegment i g).pool = m.pool := rfl

theorem Memory.segment_mapSegment (m : Memory) (i j : Word) (g : Segment) (hi : i.toNat < m.slots) :
    (m.mapSegment i.toNat g).segment j = if i = j then some g else m.segment j := by
  by_cases h : i = j
  · subst h
    simp [Memory.segment, Memory.mapSegment, hi, sparseFind_insert]
  · have hne : i.toNat ≠ j.toNat := fun e => h (BitVec.eq_of_toNat_eq e)
    simp [Memory.segment, Memory.mapSegment, sparseFind_insert, hne, h]

theorem Memory.mapSegment_wf {m : Memory} {i : Nat} {g : Segment} (hm : m.wf = true) (hi : i < m.slots)
    (hg : g.wf = true) : (m.mapSegment i g).wf = true := by
  simp only [Memory.wf, Bool.and_eq_true, Memory.mapSegment, sparseBelow] at hm ⊢
  obtain ⟨⟨⟨hr, hb⟩, hs⟩, hp⟩ := hm
  exact ⟨⟨⟨sparseRising_insert _ _ hr, sparse_all_insert hb (decide_eq_true hi)⟩, sparse_all_insert hs hg⟩, hp⟩

/-! ### The primitives: what each answers -/

/-- `MemRead` answers the word, or the kind of the first failed check. -/
theorem memRead_eq (m : Memory) (i o : Word) :
    memRead m i o =
      match m.lenAt i, m.wordAt i o with
      | none, _ => .error .invalidSegment
      | some _, none => .error .outOfBounds
      | some _, some v => .ok v := by
  simp only [memRead, Memory.lenAt, Memory.wordAt]
  cases m.segment i with
  | none => rfl
  | some g =>
    simp only [Option.map_some, Option.bind_some]
    cases g.wordAt o <;> rfl

theorem memRead_cases (m : Memory) (i o : Word) :
    (m.segment i = none ∧ memRead m i o = .error .invalidSegment) ∨
    (∃ g, m.segment i = some g ∧ g.len ≤ o ∧ memRead m i o = .error .outOfBounds) ∨
    ∃ g v, m.segment i = some g ∧ o < g.len ∧ g.wordAt o = some v ∧ memRead m i o = .ok v := by
  unfold memRead
  cases h : m.segment i with
  | none => simp
  | some g =>
    cases hw : g.wordAt o with
    | none => simp [hw, (Segment.wordAt_eq_none g o).1 hw]
    | some v => simp [hw, Segment.lt_len_of_wordAt hw]

theorem memWrite_cases (m : Memory) (i o v : Word) :
    (m.segment i = none ∧ memWrite m i o v = .error .invalidSegment) ∨
    (∃ g, m.segment i = some g ∧ g.len ≤ o ∧ memWrite m i o v = .error .outOfBounds) ∨
    ∃ g, m.segment i = some g ∧ o < g.len ∧
      memWrite m i o v = .ok (m.mapSegment i.toNat (g.withWord o v)) := by
  unfold memWrite
  cases h : m.segment i with
  | none => simp
  | some g =>
    by_cases ho : o < g.len
    · simp [ho]
    · simp [ho, BitVec.not_lt.1 ho]

theorem memAlloc_cases (m : Memory) (admitted : Bool) (n : Word) :
    ((admitted = false ∨ (m.pool = [] ∧ 2 ^ 32 ≤ m.slots)) ∧ memAlloc m admitted n = .error .resourceExhausted) ∨
    (∃ i rest, admitted = true ∧ m.pool = i :: rest ∧
      memAlloc m admitted n = .ok (i, { (m.mapSegment i.toNat (.zeros n)) with pool := rest })) ∨
    (admitted = true ∧ m.pool = [] ∧ m.slots < 2 ^ 32 ∧
      memAlloc m admitted n = .ok (BitVec.ofNat 32 m.slots,
        { (m.mapSegment m.slots (.zeros n)) with slots := m.slots + 1 })) := by
  unfold memAlloc
  cases hp : m.pool with
  | nil =>
    cases admitted
    · simp
    · by_cases hs : 2 ^ 32 ≤ m.slots
      · simp at hs
        simp [hs]
      · simp at hs
        simp [Memory.mapSegment, hs, hp]
  | cons i rest => cases admitted <;> simp [Memory.mapSegment]

theorem memFree_cases (m : Memory) (i : Word) :
    ((i = 0 ∨ m.segment i = none) ∧ memFree m i = .error .invalidSegment) ∨
    ∃ g, i ≠ 0 ∧ m.segment i = some g ∧
      memFree m i = .ok { m with table := sparseErase m.table i.toNat, pool := i :: m.pool } := by
  unfold memFree Memory.live
  by_cases hi : i = 0#32
  · simp [hi]
  · cases h : m.segment i <;> simp [hi]

theorem memInstall_cases (m : Memory) (i o : Word) :
    (m.segment i = none ∧ memInstall m i o = .error .invalidSegment) ∨
    (∃ g, m.segment i = some g ∧ g.len < o ∧ memInstall m i o = .error .outOfBounds) ∨
    (∃ g, i = 0 ∧ m.segment i = some g ∧ o ≤ g.len ∧ memInstall m i o = .ok m) ∨
    ∃ g, i ≠ 0 ∧ m.segment i = some g ∧ o ≤ g.len ∧ memInstall m i o = .ok (m.mapSegment 0 g) := by
  unfold memInstall
  cases h : m.segment i with
  | none => simp
  | some g =>
    by_cases ho : g.len < o
    · simp [ho]
    · by_cases hi : i = 0#32
      · simp [ho, hi, BitVec.not_lt.1 ho]
      · simp [ho, hi, BitVec.not_lt.1 ho]

/-! ### Freeing -/

theorem Memory.segment_erase (m : Memory) (i j : Word) (p : List Word) :
    ({ m with table := sparseErase m.table i.toNat, pool := p } : Memory).segment j =
      if i = j then none else m.segment j := by
  by_cases h : i = j
  · subst h
    simp [Memory.segment, sparseFind_erase]
  · have hne : i.toNat ≠ j.toNat := fun e => h (BitVec.eq_of_toNat_eq e)
    simp [Memory.segment, sparseFind_erase, hne, h]

/-! ### Every primitive keeps the canonical form -/

theorem memWrite_wf {m m' : Memory} {i o v : Word} (hm : m.wf = true) (h : memWrite m i o v = .ok m') :
    m'.wf = true := by
  obtain ⟨-, e⟩ | ⟨g, -, -, e⟩ | ⟨g, hg, ho, e⟩ := memWrite_cases m i o v <;> rw [e] at h
  · simp at h
  · simp at h
  · obtain rfl := Except.ok.inj h
    exact Memory.mapSegment_wf hm (Memory.lt_slots_of_segment hg)
      (Segment.withWord_wf v (Memory.segment_wf hm hg) ho)

theorem memAlloc_wf {m : Memory} {admitted : Bool} {n : Word} {r : Word × Memory} (hm : m.wf = true)
    (h : memAlloc m admitted n = .ok r) : r.2.wf = true := by
  obtain ⟨-, e⟩ | ⟨i, rest, -, hp, e⟩ | ⟨-, hp, hs, e⟩ := memAlloc_cases m admitted n <;> rw [e] at h
  · simp at h
  · obtain rfl := Except.ok.inj h
    have hi : i.toNat < m.slots ∧ rest.all (fun j => decide (j.toNat < m.slots)) = true := by
      simp only [Memory.wf, Bool.and_eq_true, hp, List.all_cons, decide_eq_true_eq] at hm
      exact hm.2
    have hw := Memory.mapSegment_wf hm hi.1 (Segment.zeros_wf n)
    simp only [Memory.wf, Bool.and_eq_true] at hw ⊢
    exact ⟨hw.1, hi.2⟩
  · obtain rfl := Except.ok.inj h
    simp only [Memory.wf, Bool.and_eq_true, Memory.mapSegment, hp] at hm ⊢
    obtain ⟨⟨⟨hr, hb⟩, hg⟩, -⟩ := hm
    exact ⟨⟨⟨sparseRising_insert _ _ hr,
      sparse_all_insert (sparseBelow_mono (Nat.le_succ _) hb) (by simp)⟩,
      sparse_all_insert hg (Segment.zeros_wf n)⟩, rfl⟩

theorem memFree_wf {m m' : Memory} {i : Word} (hm : m.wf = true) (h : memFree m i = .ok m') : m'.wf = true := by
  obtain ⟨-, e⟩ | ⟨g, -, hg, e⟩ := memFree_cases m i <;> rw [e] at h
  · simp at h
  · obtain rfl := Except.ok.inj h
    simp only [Memory.wf, Bool.and_eq_true, sparseBelow, List.all_cons] at hm ⊢
    obtain ⟨⟨⟨hr, hb⟩, hs⟩, hp⟩ := hm
    exact ⟨⟨⟨sparseRising_erase _ hr, sparse_all_erase _ hb⟩, sparse_all_erase _ hs⟩,
      by simpa using Memory.lt_slots_of_segment hg, hp⟩

theorem memInstall_wf {m m' : Memory} {i o : Word} (hm : m.wf = true) (h : memInstall m i o = .ok m') :
    m'.wf = true := by
  obtain ⟨-, e⟩ | ⟨g, -, -, e⟩ | ⟨g, -, hg, -, e⟩ | ⟨g, -, hg, -, e⟩ := memInstall_cases m i o <;> rw [e] at h
  · simp at h
  · simp at h
  · obtain rfl := Except.ok.inj h
    exact hm
  · obtain rfl := Except.ok.inj h
    exact Memory.mapSegment_wf hm (Nat.zero_lt_of_lt (Memory.lt_slots_of_segment hg)) (Memory.segment_wf hm hg)

end Sys2Proof.Machine
end

