-- ==== Sys2Proof/Laws/Step.lean ====
section
/-! SUPPORT. What the shared operations of a step can answer, said once: fetch, receive, a request that may fail, and the
step itself. -/

namespace Sys2Proof.Machine

/-! ### Requests and ports -/

/-- A request that may fail ends in the fatal outcome or in what the instruction does with the answer. -/
theorem orRaise_next {α : Type} (s : State) (answer : Except ErrKind α) (k : α → State) (t : State) :
    orRaise s answer k = .next t ↔
      (∃ e, answer = .error e ∧ t = s.raise e) ∨ ∃ v, answer = .ok v ∧ t = k v := by
  cases answer <;> simp [orRaise, eq_comm]

theorem orRaise_total {α : Type} (s : State) (answer : Except ErrKind α) (k : α → State) :
    ∃ t, orRaise s answer k = .next t := by
  cases answer <;> exact ⟨_, rfl⟩

/-- Everything the input port can answer (R119, R90). -/
theorem receive_cases (s : State) :
    (∃ b, s.port = .sequence ∧ s.input[s.inpos]? = some b ∧ receive s = (.byte b, s.setInpos (s.inpos + 1))) ∨
    (s.port = .sequence ∧ s.input.length ≤ s.inpos ∧ receive s = (.eof, s)) ∨
    (s.port = .interactive [] ∧ receive s = (.notReady, s)) ∨
    ∃ a rest, s.port = .interactive (a :: rest) ∧ receive s = (a, s.setPort (.interactive rest)) := by
  unfold receive
  cases hp : s.port with
  | sequence =>
    cases hb : s.input[s.inpos]? with
    | none => simp [List.getElem?_eq_none_iff.1 hb]
    | some b => simp
  | interactive answers => cases answers <;> simp

/-- What IN does with each answer (R104, R90). -/
theorem execInp_of_receive (c : Reg) (s : State) :
    execInp c s = .next (match (receive s).1 with
      | .byte b => (receive s).2.setReg c (zext32 b)
      | .eof => (receive s).2.setReg c allOnes
      | .notReady => (receive s).2.awaitInput) := by
  unfold execInp
  rcases receive s with ⟨a, t⟩
  cases a <;> rfl

/-! ### Fetch (R47) -/

theorem fetchWord_eq_word (s : State) (w : Word) : fetchWord s = .word w ↔ s.mem.wordAt 0 s.pc = some w := by
  unfold fetchWord Memory.wordAt
  cases h : s.mem.segment 0 with
  | none => simp
  | some g =>
    cases hw : g.wordAt s.pc with
    | some v => simp [hw]
    | none =>
      simp only [Option.bind_some, hw, reduceCtorEq, iff_false]
      split <;> simp

theorem fetchWord_eq_exhausted (s : State) : fetchWord s = .exhausted ↔ s.mem.lenAt 0 = some s.pc := by
  unfold fetchWord Memory.lenAt
  cases h : s.mem.segment 0 with
  | none => simp
  | some g =>
    simp only [Option.map_some, Option.some.injEq]
    cases hw : g.wordAt s.pc with
    | some v =>
      have := Segment.lt_len_of_wordAt hw
      simp only [reduceCtorEq, false_iff]
      rintro e
      rw [e] at this
      exact absurd this (BitVec.lt_irrefl _)
    | none =>
      by_cases hp : s.pc = g.len
      · simp [hp]
      · simp [hp, Ne.symm hp]

/-- Fetch is broken only in a state R33 (I1) rules out. -/
theorem fetchWord_not_broken {s : State} {g : Segment} (hg : s.mem.segment 0 = some g) (hp : s.pc ≤ g.len) :
    (∃ w, fetchWord s = .word w) ∨ fetchWord s = .exhausted := by
  cases hw : g.wordAt s.pc with
  | some v => exact .inl ⟨v, (fetchWord_eq_word s v).2 ((Memory.wordAt_eq_some _ _ _ _).2 ⟨g, hg, hw⟩)⟩
  | none =>
    have hge := (Segment.wordAt_eq_none g s.pc).1 hw
    exact .inr ((fetchWord_eq_exhausted s).2 ((Memory.lenAt_eq_some _ _ _).2 ⟨g, hg, BitVec.le_antisymm hge hp⟩))

/-- A word that can be fetched lies below a length, so advancing `pc` past it does not wrap (R18). -/
theorem pc_succ_toNat {s : State} {w : Word} (h : s.mem.wordAt 0 s.pc = some w) :
    (s.pc + 1).toNat = s.pc.toNat + 1 := by
  obtain ⟨g, -, hw⟩ := (Memory.wordAt_eq_some _ _ _ _).1 h
  have h1 : s.pc.toNat < g.len.toNat := Segment.lt_len_of_wordAt hw
  have h2 := g.len.isLt
  have h3 : (1 : Word).toNat = 1 := rfl
  rw [BitVec.toNat_add, h3, Nat.mod_eq_of_lt (by omega)]

/-- The port's answer, and all it leaves but `pc`, do not depend on `pc`. -/
theorem receive_setPc (s : State) (p : Word) :
    receive (s.setPc p) = ((receive s).1, (receive s).2.setPc p) := by
  obtain ⟨b, hp, hb, -⟩ | ⟨hp, hb, -⟩ | ⟨hp, -⟩ | ⟨a, rest, hp, -⟩ := receive_cases s
  · simp [receive, State.setPc, State.setInpos, hp, hb]
  · simp [receive, State.setPc, hp, List.getElem?_eq_none_iff.2 hb]
  · simp [receive, State.setPc, hp]
  · simp [receive, State.setPc, State.setPort, hp]

/-! ### The step (R86) -/

theorem step_of_word {s : State} {w : Word} (hr : s.runState = .running) (hw : s.mem.wordAt 0 s.pc = some w) :
    step s = runWord w (s.setPc (s.pc + 1)) := by
  simp [step, hr, stepRunning, (fetchWord_eq_word s w).2 hw]

theorem step_of_exhausted {s : State} (hr : s.runState = .running) (hl : s.mem.lenAt 0 = some s.pc) :
    step s = .next (s.halt .exhausted) := by
  simp [step, hr, stepRunning, (fetchWord_eq_exhausted s).2 hl]

theorem step_of_terminal {s : State} (h : s.runState ≠ .running) : step s = .next s := by
  unfold step
  cases hr : s.runState <;> simp_all

/-- Everything a step that answers a next state can have done: nothing, in a terminal state; a halt at the end of the
stream; an invalid opcode; or one instruction. -/
theorem step_cases {s t : State} (h : step s = .next t) :
    (s.runState ≠ .running ∧ t = s) ∨
    (s.runState = .running ∧ s.mem.lenAt 0 = some s.pc ∧ t = s.halt .exhausted) ∨
    (∃ w n, s.runState = .running ∧ s.mem.wordAt 0 s.pc = some w ∧ decodeInstr w = .invalidOpcode n ∧
      t = (s.setPc (s.pc + 1)).raise .invalidOpcode) ∨
    ∃ w i, s.runState = .running ∧ s.mem.wordAt 0 s.pc = some w ∧ decodeInstr w = .run i ∧
      exec i (s.setPc (s.pc + 1)) = .next t := by
  by_cases hr : s.runState = .running
  · cases hf : fetchWord s with
    | word w =>
      have hw := (fetchWord_eq_word s w).1 hf
      rw [step_of_word hr hw, runWord] at h
      cases hd : decodeInstr w with
      | run i =>
        rw [hd] at h
        exact .inr (.inr (.inr ⟨w, i, hr, hw, hd, h⟩))
      | invalidOpcode n =>
        rw [hd] at h
        exact .inr (.inr (.inl ⟨w, n, hr, hw, hd, (Host.Outcome.next.inj h).symm⟩))
    | exhausted =>
      have hl := (fetchWord_eq_exhausted s).1 hf
      rw [step_of_exhausted hr hl] at h
      exact .inr (.inl ⟨hr, hl, (Host.Outcome.next.inj h).symm⟩)
    | broken f =>
      simp [step, hr, stepRunning, hf] at h
  · rw [step_of_terminal hr] at h
    exact .inl ⟨hr, (Host.Outcome.next.inj h).symm⟩

end Sys2Proof.Machine
end

