-- ==== Sys2Proof/Laws/Exec.lean ====
section
/-! SUPPORT. What each instruction can leave, as one of a few shapes over the updates of Laws/State.lean. -/

namespace Sys2Proof.Machine

/-- Every instruction answers a next state: each of its errors is taken (R107), none stops the model. -/
theorem exec_total (i : Instr) (s : State) : ∃ t, exec i s = .next t := by
  cases i with
  | out c =>
    simp only [exec, execOut]
    split
    · exact ⟨_, rfl⟩
    · cases s.config.outWidePolicy <;> exact ⟨_, rfl⟩
  | inp c => exact ⟨_, execInp_of_receive c s⟩
  | _ => first | exact ⟨_, rfl⟩ | exact orRaise_total _ _ _

theorem execCmov_next {a b c : Reg} {s t : State} (h : execCmov a b c s = .next t) :
    (s.reg c ≠ 0 ∧ t = s.setReg a (s.reg b)) ∨ (s.reg c = 0 ∧ t = s) := by
  obtain rfl := Host.Outcome.next.inj h
  by_cases hc : s.reg c = 0
  · exact .inr ⟨hc, if_neg (not_not.2 hc)⟩
  · exact .inl ⟨hc, if_pos hc⟩

theorem execSload_next {a b c : Reg} {s t : State} (h : execSload a b c s = .next t) :
    (s.mem.segment (s.reg b) = none ∧ t = s.raise .invalidSegment) ∨
    (∃ g, s.mem.segment (s.reg b) = some g ∧ g.len ≤ s.reg c ∧ t = s.raise .outOfBounds) ∨
    ∃ g v, s.mem.segment (s.reg b) = some g ∧ s.reg c < g.len ∧ g.wordAt (s.reg c) = some v ∧
      t = s.setReg a v := by
  unfold execSload at h
  obtain ⟨hg, e⟩ | ⟨g, hg, ho, e⟩ | ⟨g, v, hg, ho, hw, e⟩ := memRead_cases s.mem (s.reg b) (s.reg c) <;>
    rw [e] at h <;> obtain rfl := Host.Outcome.next.inj h
  · exact .inl ⟨hg, rfl⟩
  · exact .inr (.inl ⟨g, hg, ho, rfl⟩)
  · exact .inr (.inr ⟨g, v, hg, ho, hw, rfl⟩)

theorem execSstore_next {a b c : Reg} {s t : State} (h : execSstore a b c s = .next t) :
    (s.mem.segment (s.reg a) = none ∧ t = s.raise .invalidSegment) ∨
    (∃ g, s.mem.segment (s.reg a) = some g ∧ g.len ≤ s.reg b ∧ t = s.raise .outOfBounds) ∨
    ∃ g, s.mem.segment (s.reg a) = some g ∧ s.reg b < g.len ∧
      t = s.setMem (s.mem.mapSegment (s.reg a).toNat (g.withWord (s.reg b) (s.reg c))) := by
  unfold execSstore at h
  obtain ⟨hg, e⟩ | ⟨g, hg, ho, e⟩ | ⟨g, hg, ho, e⟩ := memWrite_cases s.mem (s.reg a) (s.reg b) (s.reg c) <;>
    rw [e] at h <;> obtain rfl := Host.Outcome.next.inj h
  · exact .inl ⟨hg, rfl⟩
  · exact .inr (.inl ⟨g, hg, ho, rfl⟩)
  · exact .inr (.inr ⟨g, hg, ho, rfl⟩)

theorem execDiv_next {a b c : Reg} {s t : State} (h : execDiv a b c s = .next t) :
    (s.reg c = 0 ∧ t = s.raise .divideByZero) ∨
    (s.reg c ≠ 0 ∧ t = s.setReg a (BitVec.ofNat 32 ((s.reg b).toNat / (s.reg c).toNat))) := by
  unfold execDiv quotient at h
  by_cases hc : s.reg c = 0
  · rw [if_pos hc] at h
    exact .inl ⟨hc, (Host.Outcome.next.inj h).symm⟩
  · rw [if_neg hc] at h
    exact .inr ⟨hc, (Host.Outcome.next.inj h).symm⟩

/-- `ALLOC_ADMIT` reads neither `INPUT` nor the port (R82). -/
theorem allocAdmits_withInput (s : State) (input : List Byte) (port : InputPort) (n : Word) :
    allocAdmits { s with input := input, port := port } n = allocAdmits s n := rfl

theorem execAlloc_next {b c : Reg} {s t : State} (h : execAlloc b c s = .next t) :
    ((allocAdmits s (s.reg c) = false ∨ (s.mem.pool = [] ∧ 2 ^ 32 ≤ s.mem.slots)) ∧
      t = s.raise .resourceExhausted) ∨
    (∃ i rest, allocAdmits s (s.reg c) = true ∧ s.mem.pool = i :: rest ∧
      t = (s.setMem { (s.mem.mapSegment i.toNat (.zeros (s.reg c))) with pool := rest }).setReg b i) ∨
    (allocAdmits s (s.reg c) = true ∧ s.mem.pool = [] ∧ s.mem.slots < 2 ^ 32 ∧
      t = (s.setMem { (s.mem.mapSegment s.mem.slots (.zeros (s.reg c))) with slots := s.mem.slots + 1 }).setReg b
        (BitVec.ofNat 32 s.mem.slots)) := by
  unfold execAlloc at h
  obtain ⟨hx, e⟩ | ⟨i, rest, ha, hp, e⟩ | ⟨ha, hp, hs, e⟩ :=
      memAlloc_cases s.mem (allocAdmits s (s.reg c)) (s.reg c) <;>
    rw [e] at h <;> obtain rfl := Host.Outcome.next.inj h
  · exact .inl ⟨hx, rfl⟩
  · exact .inr (.inl ⟨i, rest, ha, hp, rfl⟩)
  · exact .inr (.inr ⟨ha, hp, hs, rfl⟩)

theorem execFree_next {c : Reg} {s t : State} (h : execFree c s = .next t) :
    ((s.reg c = 0 ∨ s.mem.segment (s.reg c) = none) ∧ t = s.raise .invalidSegment) ∨
    ∃ g, s.reg c ≠ 0 ∧ s.mem.segment (s.reg c) = some g ∧
      t = s.setMem
        { s.mem with table := sparseErase s.mem.table (s.reg c).toNat, pool := s.reg c :: s.mem.pool } := by
  unfold execFree at h
  obtain ⟨hx, e⟩ | ⟨g, hc, hg, e⟩ := memFree_cases s.mem (s.reg c) <;>
    rw [e] at h <;> obtain rfl := Host.Outcome.next.inj h
  · exact .inl ⟨hx, rfl⟩
  · exact .inr ⟨g, hc, hg, rfl⟩

theorem execOut_next {c : Reg} {s t : State} (h : execOut c s = .next t) :
    ((s.reg c).toNat < 256 ∧ t = s.emit ((s.reg c).setWidth 8)) ∨
    (256 ≤ (s.reg c).toNat ∧ s.config.outWidePolicy = .abort ∧ t = s.raise .outputRange) ∨
    (256 ≤ (s.reg c).toNat ∧ s.config.outWidePolicy = .ignore ∧ t = s) := by
  unfold execOut at h
  split at h
  · exact .inl ⟨‹_›, (Host.Outcome.next.inj h).symm⟩
  · have hge : 256 ≤ (s.reg c).toNat := by omega
    split at h
    · exact .inr (.inl ⟨hge, ‹_›, (Host.Outcome.next.inj h).symm⟩)
    · exact .inr (.inr ⟨hge, ‹_›, (Host.Outcome.next.inj h).symm⟩)

theorem execInp_next {c : Reg} {s t : State} (h : execInp c s = .next t) :
    (∃ b, (receive s).1 = .byte b ∧ t = (receive s).2.setReg c (zext32 b)) ∨
    ((receive s).1 = .eof ∧ t = (receive s).2.setReg c allOnes) ∨
    ((receive s).1 = .notReady ∧ t = (receive s).2.awaitInput) := by
  rw [execInp_of_receive] at h
  obtain rfl := Host.Outcome.next.inj h
  cases (receive s).1 with
  | notReady => exact .inr (.inr ⟨rfl, rfl⟩)
  | eof => exact .inr (.inl ⟨rfl, rfl⟩)
  | byte b => exact .inl ⟨b, rfl, rfl⟩

/-- Whatever the port answers, only `inpos` and the interactive host's answers can have moved. -/
theorem receive_state (s : State) : ∃ n p, (receive s).2 = (s.setInpos n).setPort p ∧
    (n = s.inpos ∨ (n = s.inpos + 1 ∧ s.inpos < s.input.length)) := by
  obtain ⟨b, hp, hb, e⟩ | ⟨hp, -, e⟩ | ⟨hp, e⟩ | ⟨a, rest, hp, e⟩ := receive_cases s <;> rw [e]
  · have hlt : s.inpos < s.input.length := by
      by_contra hge
      simp [List.getElem?_eq_none_iff.2 (Nat.not_lt.1 hge)] at hb
    exact ⟨s.inpos + 1, s.port, rfl, .inr ⟨rfl, hlt⟩⟩
  · exact ⟨s.inpos, s.port, rfl, .inl rfl⟩
  · exact ⟨s.inpos, s.port, rfl, .inl rfl⟩
  · exact ⟨s.inpos, .interactive rest, rfl, .inl rfl⟩

theorem execLoadp_next {b c : Reg} {s t : State} (h : execLoadp b c s = .next t) :
    (s.mem.segment (s.reg b) = none ∧ t = s.raise .invalidSegment) ∨
    (∃ g, s.mem.segment (s.reg b) = some g ∧ g.len < s.reg c ∧ t = s.raise .outOfBounds) ∨
    (∃ g, s.reg b = 0 ∧ s.mem.segment 0 = some g ∧ s.reg c ≤ g.len ∧ t = s.setPc (s.reg c)) ∨
    ∃ g, s.reg b ≠ 0 ∧ s.mem.segment (s.reg b) = some g ∧ s.reg c ≤ g.len ∧
      t = (s.setMem (s.mem.mapSegment 0 g)).setPc (s.reg c) := by
  unfold execLoadp at h
  obtain ⟨hg, e⟩ | ⟨g, hg, ho, e⟩ | ⟨g, hb, hg, ho, e⟩ | ⟨g, hb, hg, ho, e⟩ :=
      memInstall_cases s.mem (s.reg b) (s.reg c) <;>
    rw [e] at h <;> obtain rfl := Host.Outcome.next.inj h
  · exact .inl ⟨hg, rfl⟩
  · exact .inr (.inl ⟨g, hg, ho, rfl⟩)
  · exact .inr (.inr (.inl ⟨g, hb, hb ▸ hg, ho, rfl⟩))
  · exact .inr (.inr (.inr ⟨g, hb, hg, ho, rfl⟩))

end Sys2Proof.Machine
end

