-- ==== Sys2Proof/Laws/Frames.lean ====
section
/-! SUPPORT. What the updates of State leave unchanged, in the terms of Safety.lean, and the memory after ALLOC, FREE and
LOADP, segment by segment. -/

namespace Sys2Proof.Machine

/-! ### Frames -/

theorem sameMemory_of_mem_eq {s t : State} (h : t.mem = s.mem) : SameMemory s t := ⟨h, fun _ _ => by rw [h]⟩

theorem onlyRegs_refl (written : List Reg) (s : State) : OnlyRegs written s s :=
  ⟨fun _ _ => rfl, sameMemory_of_mem_eq rfl, ⟨rfl, rfl, rfl⟩, rfl, ⟨rfl, rfl, rfl⟩, rfl, rfl⟩

theorem sameRegs_setReg (s : State) (a : Reg) (v : Word) : SameRegs [a] s (s.setReg a v) := fun r hr =>
  State.setReg_reg_ne s a r v (by simpa using hr)

theorem onlyRegs_setReg (s : State) (a : Reg) (v : Word) : OnlyRegs [a] s (s.setReg a v) :=
  ⟨sameRegs_setReg s a v, sameMemory_of_mem_eq rfl, ⟨rfl, rfl, rfl⟩, rfl, ⟨rfl, rfl, rfl⟩, rfl, rfl⟩

theorem aborts_raise (s : State) (e : ErrKind) : Aborts e s (s.raise e) :=
  ⟨rfl, rfl, rfl, fun _ _ => rfl, sameMemory_of_mem_eq rfl, rfl, ⟨rfl, rfl, rfl⟩, rfl, rfl⟩

theorem halts_halt (s : State) (c : HaltCause) : Halts c s (s.halt c) :=
  ⟨rfl, rfl, rfl, fun _ _ => rfl, sameMemory_of_mem_eq rfl, rfl, ⟨rfl, rfl, rfl⟩, rfl, rfl⟩

/-! ### IN by the port's answer -/

theorem execInp_byte {c : Reg} {s t : State} {b : Byte} (h : receive s = (.byte b, t)) :
    execInp c s = .next (t.setReg c (zext32 b)) := by
  rw [execInp_of_receive, h]

theorem execInp_eof {c : Reg} {s t : State} (h : receive s = (.eof, t)) :
    execInp c s = .next (t.setReg c allOnes) := by
  rw [execInp_of_receive, h]

theorem execInp_notReady {c : Reg} {s t : State} (h : receive s = (.notReady, t)) :
    execInp c s = .next t.awaitInput := by
  rw [execInp_of_receive, h]

theorem zext32_toNat (b : Byte) : (zext32 b).toNat = b.toNat := by
  rw [zext32, BitVec.toNat_setWidth, Nat.mod_eq_of_lt (b.isLt.trans (by decide))]

/-! ### Memory, segment by segment -/

theorem Memory.sparseBelow_of_wf {m : Memory} (h : m.wf = true) : sparseBelow m.slots m.table = true := by
  simp only [Memory.wf, Bool.and_eq_true] at h
  exact h.1.1.2

/-- A new slot at the end (R44): the fresh index holds the segment and every other index what it held. -/
theorem Memory.segment_newSlot {m : Memory} (g : Segment) (hs : m.slots < 2 ^ 32)
    (hb : sparseBelow m.slots m.table = true) (j : Word) :
    ({ (m.mapSegment m.slots g) with slots := m.slots + 1 } : Memory).segment j =
      if BitVec.ofNat 32 m.slots = j then some g else m.segment j := by
  simp only [Memory.segment, Memory.mapSegment, sparseFind_insert]
  by_cases hj : BitVec.ofNat 32 m.slots = j
  · subst hj
    rw [word_toNat_ofNat hs]
    simp
  · have : m.slots ≠ j.toNat := fun e => hj (by rw [e, BitVec.ofNat_toNat, BitVec.setWidth_eq])
    rw [if_neg this, if_neg hj]
    by_cases hl : j.toNat < m.slots
    · rw [if_pos hl, if_pos (by omega)]
    · rw [if_neg hl]
      split
      · exact sparseFind_eq_none_of_below hb (by omega)
      · rfl

/-- The copy LOADP makes (R46): index 0 holds the segment and every other index what it held. -/
theorem Memory.segment_install {m : Memory} {i : Word} {g : Segment} (hg : m.segment i = some g) (j : Word) :
    (m.mapSegment 0 g).segment j = if 0 = j then some g else m.segment j :=
  Memory.segment_mapSegment m 0 j g (Nat.zero_lt_of_lt (Memory.lt_slots_of_segment hg))

/-- Indices that answer one segment answer one length and the same words. -/
theorem Memory.lenAt_wordAt_congr {m m' : Memory} {i j : Word} (h : m.segment i = m'.segment j) :
    m.lenAt i = m'.lenAt j ∧ ∀ o, m.wordAt i o = m'.wordAt j o :=
  ⟨Memory.lenAt_congr h, Memory.wordAt_congr h⟩

/-! ### Format R by the opcode map -/

/-- A row of the opcode map is the Format R instruction with its opcode (R69, R70, R77). -/
theorem formatR_of_row {op : Nat} (hop : op < 13) {f : Reg → Reg → Reg → Instr} {x y z : Bool}
    (hf : opcodeMap[op] = f)
    (he : ∀ a b c, encode (f a b c) =
      encodeR op (if x then a else 0) (if y then b else 0) (if z then c else 0)) : FormatR op f x y z := by
  refine ⟨fun w hw => ?_, fun a b c => by rw [he, encodeR_eq (by omega)]⟩
  subst hw hf
  rw [decodeInstr, decode_eq, if_neg (by omega), dif_pos hop]
  rfl

end Sys2Proof.Machine
end

