-- ==== Sys2Proof/Laws/Launch.lean ====
section
/-! SUPPORT. The words an image gives, and the segment they are loaded into. -/

namespace Sys2Proof.Machine

theorem imageWords_length (image : List Byte) : (imageWords image).length = image.length / 4 := by
  induction image using imageWords.induct with
  | case1 b0 b1 b2 b3 rest ih =>
    simp only [imageWords, List.length_cons, ih]
    omega
  | case2 image h =>
    have : image.length < 4 := by
      match image, h with
      | [], _ => simp
      | [_], _ => simp
      | [_, _], _ => simp
      | [_, _, _], _ => simp
      | b0 :: b1 :: b2 :: b3 :: rest, h => exact absurd rfl (h b0 b1 b2 b3 rest)
    rw [imageWords]
    · simp only [List.length_nil]
      omega
    · exact h

theorem bigEndian_toNat (b0 b1 b2 b3 : Byte) :
    (bigEndian b0 b1 b2 b3).toNat = b0.toNat * 2 ^ 24 + b1.toNat * 2 ^ 16 + b2.toNat * 2 ^ 8 + b3.toNat := by
  have h1 := b1.isLt
  have h2 := b2.isLt
  have h3 := b3.isLt
  simp only [bigEndian, BitVec.toNat_append, Nat.shiftLeft_eq, Nat.mul_comm _ (2 ^ 8)]
  rw [← Nat.two_pow_add_eq_or_of_lt h1, ← Nat.two_pow_add_eq_or_of_lt h2, ← Nat.two_pow_add_eq_or_of_lt h3]
  omega

theorem bigEndian_bytes (w : Word) :
    bigEndian (w.extractLsb' 24 8) (w.extractLsb' 16 8) (w.extractLsb' 8 8) (w.extractLsb' 0 8) = w := by
  apply BitVec.eq_of_toNat_eq
  rw [bigEndian_toNat]
  have := w.isLt
  simp only [BitVec.extractLsb'_toNat, Nat.shiftRight_eq_div_pow]
  omega

/-- The image of a list of words gives the list back (R48). -/
theorem imageWords_imageOf (ws : List Word) : imageWords (imageOf ws) = ws := by
  induction ws with
  | nil => rfl
  | cons w rest ih => rw [imageOf, imageWords, ih, bigEndian_bytes]

theorem imageOf_length (ws : List Word) : (imageOf ws).length = 4 * ws.length := by
  induction ws with
  | nil => rfl
  | cons w rest ih => simp only [imageOf, List.length_cons, ih]; omega

theorem sparseFind_sparseWords (ws : List Word) (o k : Nat) :
    (sparseFind (sparseWords o ws) (o + k)).getD 0 = ws[k]?.getD 0 := by
  have below : ∀ (ws : List Word) (o i : Nat), i < o → sparseFind (sparseWords o ws) i = none := by
    intro ws
    induction ws with
    | nil => intros; rfl
    | cons w rest ih =>
      intro o i hi
      simp only [sparseWords]
      split
      · exact ih _ _ (by omega)
      · simp only [sparseFind]
        rw [if_neg (by omega), ih _ _ (by omega)]
  induction ws generalizing o k with
  | nil => simp [sparseWords, sparseFind]
  | cons w rest ih =>
    simp only [sparseWords]
    cases k with
    | zero =>
      split
      · rw [below _ _ _ (by omega)]
        simp [*]
      · simp [sparseFind]
    | succ k =>
      have := ih (o + 1) k
      rw [show o + 1 + k = o + (k + 1) by omega] at this
      split
      · simpa using this
      · simp only [sparseFind]
        rw [if_neg (by omega)]
        simpa using this

theorem sparseWords_wf (ws : List Word) (o : Nat) :
    sparseRisingFrom o (sparseWords o ws) = true ∧ sparseBelow (o + ws.length) (sparseWords o ws) = true ∧
      (sparseWords o ws).all (fun e => decide (e.2 ≠ 0)) = true := by
  induction ws generalizing o with
  | nil => exact ⟨rfl, rfl, rfl⟩
  | cons w rest ih =>
    obtain ⟨h1, h2, h3⟩ := ih (o + 1)
    have h2' : sparseBelow (o + (w :: rest).length) (sparseWords (o + 1) rest) = true :=
      sparseBelow_mono (by simp; omega) h2
    simp only [sparseWords]
    split
    · exact ⟨sparseRisingFrom_mono (by omega) h1, h2', h3⟩
    · refine ⟨?_, ?_, ?_⟩
      · simp [sparseRisingFrom, h1]
      · simp only [sparseBelow, List.all_cons, Bool.and_eq_true, decide_eq_true_eq]
        exact ⟨by simp, h2'⟩
      · simp only [List.all_cons, Bool.and_eq_true]
        exact ⟨by simpa using ‹_›, h3⟩

theorem Segment.ofWords_wf {ws : List Word} (h : ws.length < 2 ^ 32) : (Segment.ofWords ws).wf = true := by
  obtain ⟨h1, h2, h3⟩ := sparseWords_wf ws 0
  simp only [Segment.wf, Segment.ofWords, Bool.and_eq_true, word_toNat_ofNat h]
  exact ⟨⟨h1, by simpa using h2⟩, h3⟩

/-- The segment loaded from a list of words holds them (R124 step 3). -/
theorem Segment.ofWords_wordAt {ws : List Word} (h : ws.length < 2 ^ 32) (k : Nat) (hk : k < ws.length) :
    (Segment.ofWords ws).wordAt (BitVec.ofNat 32 k) = some ws[k] := by
  have hk32 : k < 2 ^ 32 := hk.trans h
  have hlt : BitVec.ofNat 32 k < (Segment.ofWords ws).len := by
    rw [BitVec.lt_def, Segment.ofWords, word_toNat_ofNat hk32, word_toNat_ofNat h]
    exact hk
  have := sparseFind_sparseWords ws 0 k
  rw [Nat.zero_add, List.getElem?_eq_getElem hk, Option.getD_some] at this
  rw [Segment.wordAt, if_pos hlt, word_toNat_ofNat hk32, Segment.ofWords, this]

/-- What a launch that is not refused leaves. -/
theorem launch_eq_some {config : Config} {image input : List Byte} {port : InputPort} {s : State}
    (h : launch config image input port = some s) :
    (imageWords image).length < 2 ^ 32 ∧
    ((image.length % 4 ≠ 0 ∧ config.imageTailPolicy = .reject ∧
        s = (State.launched config (.ofWords (imageWords image)) input port).raise .malformedInput) ∨
      (¬ (image.length % 4 ≠ 0 ∧ config.imageTailPolicy = .reject) ∧
        s = State.launched config (.ofWords (imageWords image)) input port)) := by
  simp only [launch] at h
  split at h
  · simp at h
  · refine ⟨by omega, ?_⟩
    split at h
    · exact .inl ⟨‹_ ∧ _›.1, ‹_ ∧ _›.2, (Option.some.inj h).symm⟩
    · exact .inr ⟨‹_›, (Option.some.inj h).symm⟩

/-- The memory of a launch: slot 0 alone, holding the image's words. -/
theorem State.launched_segment (config : Config) (g : Segment) (input : List Byte) (port : InputPort) (i : Word) :
    (State.launched config g input port).mem.segment i = if i = 0 then some g else none := by
  simp only [State.launched, Memory.segment, sparseFind]
  by_cases h : i = 0
  · simp [h]
  · have : i.toNat ≠ 0 := fun e => h (BitVec.eq_of_toNat_eq (by simpa using e))
    rw [if_neg (by omega), if_neg h]

end Sys2Proof.Machine
end

