-- ==== Sys2Proof/Laws/PerInstr.lean ====
section
/-! SUPPORT. Statements for all instructions, one lemma a constructor. -/

namespace Sys2Proof.Laws.EncodeDecode

open Sys2Proof.Machine

/-- The canonical word of a well-formed instruction exists and decodes to it (R77). -/
def Statement (i : Instr) : Prop := i.wf = true → ∃ w, encode i = some w ∧ decodeInstr w = .run i

/-- A Format R instruction round-trips when row `op` of the opcode map gives it from its fields. -/
theorem of_formatR {op : Nat} (hop : op < 13) {i : Instr} {a b c : Reg} (he : encode i = encodeR op a b c)
    (hm : opcodeMap[op] a b c = i) : Statement i := fun _ =>
  ⟨canonicalR op a b c, he.trans (encodeR_eq (by omega) a b c), by
    rw [decodeInstr, decode_canonicalR hop]
    exact congrArg Dispatched.run hm⟩

theorem cmov (a b c : Reg) : Statement (.cmov a b c) := of_formatR (op := 0) (by decide) rfl rfl
theorem sload (a b c : Reg) : Statement (.sload a b c) := of_formatR (op := 1) (by decide) rfl rfl
theorem sstore (a b c : Reg) : Statement (.sstore a b c) := of_formatR (op := 2) (by decide) rfl rfl
theorem add (a b c : Reg) : Statement (.add a b c) := of_formatR (op := 3) (by decide) rfl rfl
theorem mul (a b c : Reg) : Statement (.mul a b c) := of_formatR (op := 4) (by decide) rfl rfl
theorem div (a b c : Reg) : Statement (.div a b c) := of_formatR (op := 5) (by decide) rfl rfl
theorem nand (a b c : Reg) : Statement (.nand a b c) := of_formatR (op := 6) (by decide) rfl rfl
theorem halt : Statement .halt := of_formatR (op := 7) (by decide) rfl rfl
theorem alloc (b c : Reg) : Statement (.alloc b c) := of_formatR (op := 8) (by decide) rfl rfl
theorem free (c : Reg) : Statement (.free c) := of_formatR (op := 9) (by decide) rfl rfl
theorem out (c : Reg) : Statement (.out c) := of_formatR (op := 10) (by decide) rfl rfl
theorem inp (c : Reg) : Statement (.inp c) := of_formatR (op := 11) (by decide) rfl rfl
theorem loadp (b c : Reg) : Statement (.loadp b c) := of_formatR (op := 12) (by decide) rfl rfl

theorem li (a : Reg) (imm : Word) : Statement (.li a imm) := fun h => by
  have hi : imm.toNat < 2 ^ 25 := of_decide_eq_true h
  exact ⟨_, encodeI_eq a hi, by rw [decodeInstr, decode_canonicalI a hi]; rfl⟩

end Sys2Proof.Laws.EncodeDecode
end

