-- ==== Sys2Proof/Laws/Sound.lean ====
section
/-! SUPPORT. The memory unit's requests keep memory sound (R33, I2 to I4). -/

namespace Sys2Proof.Machine

/-- Soundness needs only the canonical form again where slots, pool and the Mapped indices are the same. -/
theorem Memory.Sound.of_same_slots {m m' : Memory} (h : m.Sound) (hw : m'.wf = true)
    (hs : m'.slots = m.slots) (hp : m'.pool = m.pool) (hseg : ∀ i, m'.segment i = none ↔ m.segment i = none) : m'.Sound :=
  ⟨hw, hs ▸ h.slotsPositive, hs ▸ h.slotsBounded, by rw [hs, hp]; exact h.poolNamesSlots, hp ▸ h.poolNodup, by
    intro i hi; rw [hseg, hp]; exact h.unmappedIffPooled i (hs ▸ hi)⟩

/-- Replacing the segment of a live index keeps memory sound. -/
theorem Memory.Sound.mapSegment {m : Memory} (h : m.Sound) {i : Word} {g0 g : Segment}
    (h0 : m.segment i = some g0) (hg : g.wf = true) : (m.mapSegment i.toNat g).Sound := by
  have hi := Memory.lt_slots_of_segment h0
  refine Memory.Sound.of_same_slots h (Memory.mapSegment_wf h.canonical hi hg) rfl rfl fun j => ?_
  rw [Memory.segment_mapSegment _ _ _ _ hi]
  by_cases hj : i = j
  · subst hj; simp [h0]
  · simp [hj]

/-- `Alloc` keeps memory sound, and keeps every segment whose index it does not take. -/
theorem Memory.Sound.memAlloc {m : Memory} (h : m.Sound) {ad n r} (hr : memAlloc m ad n = .ok r) :
    r.2.Sound ∧ ∀ i, i ∉ m.pool → i.toNat < m.slots → r.2.segment i = m.segment i := by
  have hw := memAlloc_wf h.canonical hr
  obtain ⟨-, e⟩ | ⟨i, rest, -, hp, e⟩ | ⟨-, hp, hs, e⟩ := memAlloc_cases m ad n <;> rw [e] at hr
  · cases hr
  · obtain rfl := Except.ok.inj hr
    have hi := h.poolNamesSlots i (by simp [hp])
    have hnd := h.poolNodup; rw [hp, List.nodup_cons] at hnd
    have hseg : ∀ j, Memory.segment { (m.mapSegment i.toNat (.zeros n)) with pool := rest } j = _ := fun j => Memory.segment_mapSegment m i j (.zeros n) hi.2
    refine ⟨⟨hw, h.slotsPositive, h.slotsBounded, fun j hj => h.poolNamesSlots j (by simp only [hp]; exact List.mem_cons_of_mem _ hj), hnd.2, ?_⟩, ?_⟩
    · intro j hj
      rw [hseg]
      by_cases hij : i = j
      · subst hij; simp [hnd.1]
      · rw [if_neg hij, h.unmappedIffPooled j hj, hp]
        simp [Ne.symm hij]
    · intro j hj _
      exact (hseg j).trans (if_neg fun e => hj (by rw [hp, e]; simp))
  · obtain rfl := Except.ok.inj hr
    have hseg := Memory.segment_newSlot (.zeros n) hs (Memory.sparseBelow_of_wf h.canonical)
    refine ⟨⟨hw, by simp, by simpa using hs, by intro j hj; simp [Memory.mapSegment, hp] at hj, by simp [Memory.mapSegment, hp], ?_⟩, ?_⟩
    · intro j hj
      rw [hseg]
      by_cases hij : BitVec.ofNat 32 m.slots = j
      · simp [hij, Memory.mapSegment, hp]
      · have : j.toNat < m.slots := by
          have : m.slots ≠ j.toNat := fun e => hij (by rw [e, BitVec.ofNat_toNat, BitVec.setWidth_eq])
          simp at hj; omega
        rw [if_neg hij, h.unmappedIffPooled j this]; rfl
    · intro j _ hj
      refine (hseg j).trans (if_neg fun e => ?_)
      rw [← e, word_toNat_ofNat hs] at hj; omega

/-- `Free` keeps memory sound. -/
theorem Memory.Sound.memFree {m m' : Memory} (h : m.Sound) {i} (hr : memFree m i = .ok m') : m'.Sound := by
  have hw := memFree_wf h.canonical hr
  obtain ⟨-, e⟩ | ⟨g, h0, hg, e⟩ := memFree_cases m i <;> rw [e] at hr
  · cases hr
  · obtain rfl := Except.ok.inj hr
    have hi := Memory.lt_slots_of_segment hg
    refine ⟨hw, h.slotsPositive, h.slotsBounded, ?_, ?_, ?_⟩
    · intro j hj
      rcases List.mem_cons.1 hj with rfl | hj
      · exact ⟨h0, hi⟩
      · exact h.poolNamesSlots j hj
    · refine List.nodup_cons.2 ⟨fun hmem => ?_, h.poolNodup⟩
      have := (h.unmappedIffPooled i hi).2 hmem
      rw [hg] at this; cases this
    · intro j hj
      rw [Memory.segment_erase]
      by_cases hij : i = j
      · subst hij; simp
      · rw [if_neg hij, h.unmappedIffPooled j hj]; simp [Ne.symm hij]

/-- Segment 0 is never free (R30). -/
theorem Memory.Sound.zero_not_pooled {m : Memory} (h : m.Sound) : (0 : Word) ∉ m.pool := fun hm => (h.poolNamesSlots 0 hm).1 rfl

end Sys2Proof.Machine
end

