-- ==== Sys2Proof/Machine/Assembler.lean ====
section
/-! DEFINITION. The assembler (R78, R79, D13): what a line of text stands for, the words a program text gives, and the line
an instruction is written as. A text is a list of lines and a line a list of characters. The source gives no assembler; the
language is the spec's own, and what R78 does not settle is log 33. -/

namespace Sys2Proof

/-- What a line stands for. -/
inductive AsmLine where
  /-- nothing but blanks and a comment (log 33) -/
  | blank
  | instr (i : Instr)
  /-- `.word`, a raw word -/
  | word (w : Word)
  deriving DecidableEq, Repr

/-- A blank between the parts of a line (log 33). -/
def isBlank (c : Char) : Bool := c == ' ' || c == '\t'

/-- A text without the blanks at its two ends. -/
def trimBlanks (l : List Char) : List Char :=
  ((l.dropWhile isBlank).reverse.dropWhile isBlank).reverse

/-- A line up to its comment, which `;` starts. -/
def uncommented (l : List Char) : List Char := l.takeWhile fun c => c != ';'

/-- The parts of a text between commas, trimmed; a text without one has a single part. -/
def commaParts : List Char → List Char → List (List Char)
  | part, [] => [trimBlanks part.reverse]
  | part, c :: rest => if c == ',' then trimBlanks part.reverse :: commaParts [] rest else commaParts (c :: part) rest

/-- The operands after a mnemonic; none where only blanks follow. -/
def operandTexts (l : List Char) : List (List Char) :=
  if (trimBlanks l).isEmpty then [] else commaParts [] l

/-- The value of a digit, letters in either case. -/
def digitValue (c : Char) : Nat :=
  if '0' ≤ c ∧ c ≤ '9' then c.toNat - '0'.toNat
  else if 'a' ≤ c ∧ c ≤ 'f' then c.toNat - 'a'.toNat + 10
  else if 'A' ≤ c ∧ c ≤ 'F' then c.toNat - 'A'.toNat + 10
  else 16

/-- A number in a base, from the value of the digits before. -/
def digitsFrom (base : Nat) : Nat → List Char → Option Nat
  | value, [] => some value
  | value, c :: rest =>
    if digitValue c < base then digitsFrom base (value * base + digitValue c) rest else none

/-- A `0x` hex number. -/
def hexOf : List Char → Option Nat
  | '0' :: 'x' :: c :: rest => digitsFrom 16 0 (c :: rest)
  | _ => none

/-- A number, `0x` hex or decimal. -/
def numberOf (l : List Char) : Option Nat :=
  (hexOf l).or (if l.isEmpty then none else digitsFrom 10 0 l)

/-- `r0` to `r7`. -/
def registerOf : List Char → Option Reg
  | ['r', c] => if h : digitValue c < 8 then some ⟨digitValue c, h⟩ else none
  | _ => none

/-- The operation of a mnemonic in lower case, applied to its operand texts (R78). -/
def operationOf : List Char → List (List Char) → Option AsmLine
  | ['c', 'm', 'o', 'v'], [a, b, c] =>
    return .instr (.cmov (← registerOf a) (← registerOf b) (← registerOf c))
  | ['s', 'l', 'o', 'a', 'd'], [a, b, c] =>
    return .instr (.sload (← registerOf a) (← registerOf b) (← registerOf c))
  | ['s', 's', 't', 'o', 'r', 'e'], [a, b, c] =>
    return .instr (.sstore (← registerOf a) (← registerOf b) (← registerOf c))
  | ['a', 'd', 'd'], [a, b, c] =>
    return .instr (.add (← registerOf a) (← registerOf b) (← registerOf c))
  | ['m', 'u', 'l'], [a, b, c] =>
    return .instr (.mul (← registerOf a) (← registerOf b) (← registerOf c))
  | ['d', 'i', 'v'], [a, b, c] =>
    return .instr (.div (← registerOf a) (← registerOf b) (← registerOf c))
  | ['n', 'a', 'n', 'd'], [a, b, c] =>
    return .instr (.nand (← registerOf a) (← registerOf b) (← registerOf c))
  | ['h', 'a', 'l', 't'], [] => some (.instr .halt)
  | ['a', 'l', 'l', 'o', 'c'], [b, c] => return .instr (.alloc (← registerOf b) (← registerOf c))
  | ['f', 'r', 'e', 'e'], [c] => return .instr (.free (← registerOf c))
  | ['o', 'u', 't'], [c] => return .instr (.out (← registerOf c))
  | ['i', 'n'], [c] => return .instr (.inp (← registerOf c))
  | ['l', 'o', 'a', 'd', 'p'], [b, c] => return .instr (.loadp (← registerOf b) (← registerOf c))
  | ['l', 'i'], [a, imm] => do
    let a ← registerOf a
    let n ← numberOf imm
    if n < 2 ^ 25 then some (.instr (.li a (BitVec.ofNat 32 n))) else none
  | ['.', 'w', 'o', 'r', 'd'], [v] => do
    let n ← hexOf v
    if n < 2 ^ 32 then some (.word (BitVec.ofNat 32 n)) else none
  | _, _ => none

/-- A line read (R78): a mnemonic in either case, blanks, and the operands between commas. `none` is a line the
language does not have. -/
def parseLine (line : List Char) : Option AsmLine :=
  let text := trimBlanks (uncommented line)
  if text.isEmpty then some .blank
  else operationOf ((text.takeWhile fun c => !isBlank c).map Char.toLower)
    (operandTexts (text.dropWhile fun c => !isBlank c))

/-- The words of a line: an instruction's canonical word (R77), the raw word, or none. -/
def AsmLine.encoded : AsmLine → Option (List Word)
  | .blank => some []
  | .instr i => (encode i).map fun w => [w]
  | .word w => some [w]

/-- The words a program text gives, line by line. -/
def assemble : List (List Char) → Option (List Word)
  | [] => some []
  | line :: rest => do
    let ws ← (← parseLine line).encoded
    let more ← assemble rest
    return ws ++ more

/-! ### The assembler's spelling -/

/-- `r0` to `r7` (R78). -/
def regName (r : Reg) : String := "r" ++ toString r.val

/-- An instruction's line of assembler (R78): operands in field order, unused fields left out. -/
def Instr.assembly : Instr → String
  | .cmov a b c => "CMOV " ++ regName a ++ ", " ++ regName b ++ ", " ++ regName c
  | .sload a b c => "SLOAD " ++ regName a ++ ", " ++ regName b ++ ", " ++ regName c
  | .sstore a b c => "SSTORE " ++ regName a ++ ", " ++ regName b ++ ", " ++ regName c
  | .add a b c => "ADD " ++ regName a ++ ", " ++ regName b ++ ", " ++ regName c
  | .mul a b c => "MUL " ++ regName a ++ ", " ++ regName b ++ ", " ++ regName c
  | .div a b c => "DIV " ++ regName a ++ ", " ++ regName b ++ ", " ++ regName c
  | .nand a b c => "NAND " ++ regName a ++ ", " ++ regName b ++ ", " ++ regName c
  | .halt => "HALT"
  | .alloc b c => "ALLOC " ++ regName b ++ ", " ++ regName c
  | .free c => "FREE " ++ regName c
  | .out c => "OUT " ++ regName c
  | .inp c => "IN " ++ regName c
  | .loadp b c => "LOADP " ++ regName b ++ ", " ++ regName c
  | .li a imm => "LI " ++ regName a ++ ", " ++ toString imm.toNat

end Sys2Proof
end

