-- ==== Sys2Proof/Tests/Slice0.lean ====
section
/-! SUPPORT. Tests on single words and single steps, their expected results taken from the worked examples and vectors of
spec/95_test_vectors.md (its ids stand in the names). -/

namespace Sys2Proof.Tests

open Sys2Proof Sys2Proof.Machine

/-! ### Well-formedness: the one check, an immediate of 2^25 or more (R71, R77) -/

theorem test_wf_refuses_wide_immediate : (Instr.li 0 0x02000000).wf = false := by decide
theorem test_wf_accepts_largest_immediate : (Instr.li 7 0x01FFFFFF).wf = true := by decide
theorem test_encode_refuses_TX12 : encode (.li 0 0x02000000) = none := by decide

/-! ### Decoding: one word for every constructor, written from R70, R71 and R78 -/

theorem test_decode_cmov_TX5 : decodeInstr 0x00000053 = .run (.cmov 1 2 3) := by decide
theorem test_decode_cmov_TX6 : decodeInstr 0x0FFFFE53 = .run (.cmov 1 2 3) := by decide
theorem test_decode_sload_TL1 : decodeInstr 0x10000153 = .run (.sload 5 2 3) := by decide
theorem test_decode_sstore_TL7 : decodeInstr 0x2000009C = .run (.sstore 2 3 4) := by decide
theorem test_decode_add_P3 : decodeInstr 0x300001E8 = .run (.add 7 5 0) := by decide
theorem test_decode_mul_P5 : decodeInstr 0x4000010A = .run (.mul 4 1 2) := by decide
theorem test_decode_div_W7 : decodeInstr 0x50000001 = .run (.div 0 0 1) := by decide
theorem test_decode_nand_P3 : decodeInstr 0x600000C0 = .run (.nand 3 0 0) := by decide
theorem test_decode_halt_TX8 : decodeInstr 0x7FFFFFFF = .run .halt := by decide
theorem test_decode_alloc_P4 : decodeInstr 0x80000039 = .run (.alloc 7 1) := by decide
theorem test_decode_free_TF1 : decodeInstr 0x90000002 = .run (.free 2) := by decide
theorem test_decode_out_P3 : decodeInstr 0xA0000006 = .run (.out 6) := by decide
theorem test_decode_in_TI1 : decodeInstr 0xB0000001 = .run (.inp 1) := by decide
theorem test_decode_loadp_P5 : decodeInstr 0xC0000038 = .run (.loadp 7 0) := by decide
theorem test_decode_li_TX4 : decodeInstr 0xD1FFFFFF = .run (.li 0 0x01FFFFFF) := by decide
theorem test_decode_li_TX3 : decodeInstr 0xDE000000 = .run (.li 7 0) := by decide
theorem test_decode_raw_TX7 : decode 0x000001FF = .op 0 7 7 7 := by decide
theorem test_decode_invalid_TX9 : decodeInstr 0xE0000000 = .invalidOpcode 14 := by decide
theorem test_decode_invalid_TX10 : decodeInstr 0xFFFFFFFF = .invalidOpcode 15 := by decide
theorem test_table_word_li : decodeTableWord 32 0xD0000048 = some (.li 0 72) := by decide
theorem test_encode_li_P4 : encode (.li 4 0x1234567) = some 0xD9234567 := by decide
theorem test_encode_add_P3 : encode (.add 1 1 3) = some 0x3000004B := by decide
theorem test_parse_mnemonic_case : parseLine "cmov r1, r2, r3 ; move".toList = some (.instr (.cmov 1 2 3)) := by decide
theorem test_parse_rejects_wide_immediate : parseLine "LI r7, 0x02000000".toList = none := by decide
theorem test_assemble : assemble ["LI r0, 72".toList, "; print".toList, "OUT r0".toList, ".word 0xE0000000".toList,
    "HALT".toList] = some [0xD0000048, 0xA0000000, 0xE0000000, 0x70000000] := by decide
theorem test_assembly : (Instr.loadp 0 7).assembly = "LOADP r0, r7" := by decide

/-! ### Codec: the vectors TK -/

theorem test_getu_TK1 : getu 0xDEADBEEF 8 4 = some 0xEE := by decide
theorem test_getu_TK4 : getu 0xFFFFFFFF00000000 32 32 = some 0xFFFFFFFF := by decide
theorem test_getu_TK5 : getu 0xDEADBEEF 0 5 = some 0 := by decide
theorem test_getu_TK7 : getu 0xDEADBEEF 2 63 = none := by decide
theorem test_newu_TK8 : newu 0xDEADBEEF 8 4 0x12 = some 0xDEADB12F := by decide
theorem test_newu_TK10 : newu 0xDEADBEEF 3 0 8 = none := by decide
theorem test_newu_TK12 : newu 0xDEADBEEF 0 0 1 = none := by decide

/-! ### Steps on small states -/

/-- The reset state with a segment 0 and, when given, a live segment 1. -/
def boot (stream : List Word) (segment1 : Option (List Word) := none) : State :=
  match segment1 with
  | none => { State.reset with mem := { slots := 1, table := [(0, .ofWords stream)], pool := [] } }
  | some ws =>
    { State.reset with mem := { slots := 2, table := [(0, .ofWords stream), (1, .ofWords ws)], pool := [] } }

/-- Registers preset for a test. -/
def preset (s : State) (values : List (Reg × Word)) : State := values.foldl (fun t p => t.setReg p.1 p.2) s

/-- The state after one step, when there is one. -/
def after (s : State) : Option State :=
  match step s with
  | .next t => some t
  | _ => none

/-- What a vector shows of an aborted step: the run state, the kind and `pc`. -/
def status (s : State) : RunState × ErrKind × Word := (s.runState, s.errKind, s.pc)

theorem test_reset_is_launch_of_nothing : launch Config.default [] [] .sequence = some State.reset := by decide
theorem test_launch_W9 : (launch Config.default [0xD0, 0, 0, 0x48, 0x70, 0, 0, 0, 0xAB] [] .sequence).map
    (fun s => s.mem.table) = some [(0, { len := 2, words := [(0, 0xD0000048), (1, 0x70000000)] })] := by decide
theorem test_launch_W9_reject :
    (launch { Config.default with imageTailPolicy := .reject } [0xD0, 0, 0, 0x48, 0x70, 0, 0, 0, 0xAB] [] .sequence).map
      (fun s => (status s, s.mem.lenAt 0)) = some ((.aborted, .malformedInput, 0), some 2) := by decide

theorem test_exhausted_TS1 : (after (boot [])).map (fun t => (t.runState, t.haltCause, t.pc)) =
    some (.halted, .exhausted, 0) := by decide
theorem test_invalid_TS3 : (after (preset (boot [0xFFFFFFFF]) [(1, 5)])).map (fun t => (status t, t.reg 1)) =
    some ((.aborted, .invalidOpcode, 1), 5) := by decide

theorem test_cmov_TM3 : (after (preset (boot [0x00000051]) [(1, 5), (2, 9)])).map (fun t => (t.reg 1, t.pc)) =
    some (9, 1) := by decide
theorem test_cmov_TM2 : (after (preset (boot [0x00000053]) [(1, 5), (2, 9)])).map (·.reg 1) = some 5 := by decide
theorem test_sload_TL1 : (after (preset (boot [0x10000153] (some [0, 0, 0x01234567, 0])) [(2, 1), (3, 2)])).map
    (·.reg 5) = some 0x01234567 := by decide
theorem test_sload_TL4 : (after (preset (boot [0x10000053]) [(2, 5), (3, 100)])).map status =
    some (.aborted, .invalidSegment, 1) := by decide
theorem test_sstore_TL10 : (after (preset (boot [0x20000049] (some [0, 0])) [(1, 1)])).map (·.mem.table) =
    some [(0, .ofWords [0x20000049]), (1, .ofWords [0, 1])] := by decide
theorem test_sstore_TL8 : (after (preset (boot [0x20000053] (some [])) [(1, 1)])).map
    (fun t => (status t, t.mem.lenAt 1)) = some ((.aborted, .outOfBounds, 1), some 0) := by decide
theorem test_add_TA1 : (after (preset (boot [0x30000053]) [(2, 0xFFFFFFFF), (3, 2)])).map (·.reg 1) = some 1 := by decide
theorem test_mul_TU1 : (after (preset (boot [0x40000053]) [(2, 0xFFFFFFFF), (3, 2)])).map (·.reg 1) =
    some 0xFFFFFFFE := by decide
theorem test_div_TV2 : (after (preset (boot [0x50000053]) [(2, 0x80000000), (3, 2)])).map (·.reg 1) =
    some 0x40000000 := by decide
theorem test_div_TV6 : (after (preset (boot [0x50000053]) [(1, 7)])).map (fun t => (status t, t.reg 1)) =
    some ((.aborted, .divideByZero, 1), 7) := by decide
theorem test_nand_TN3 : (after (preset (boot [0x60000053]) [(2, 0xF0F0F0F0), (3, 0xFF00FF00)])).map (·.reg 1) =
    some 0x0FFF0FFF := by decide
theorem test_halt_TH1 : (after ((boot [0, 0, 0, 0x70000000]).setPc 3)).map (fun t => (t.runState, t.haltCause, t.pc)) =
    some (.halted, .haltInstr, 4) := by decide
theorem test_alloc_TG2 :
    (after { preset (boot [0x80000011]) [(1, 3)] with
      mem := { slots := 3, table := [(0, .ofWords [0x80000011])], pool := [2, 1] } }).map
        (fun t => (t.reg 2, t.mem)) =
      some (2, { slots := 3, table := [(0, .ofWords [0x80000011]), (2, .ofWords [0, 0, 0])], pool := [1] }) := by decide
theorem test_alloc_TG6 :
    (after { preset (boot [0x80000011]) [(1, 1)] with
      mem := { slots := 4294967296, table := [(0, .ofWords [0x80000011])], pool := [] } }).map status =
      some (.aborted, .resourceExhausted, 1) := by decide
theorem test_free_TF1 : (after (preset (boot [0x90000002] (some [7])) [(2, 1)])).map (·.mem) =
    some { slots := 2, table := [(0, .ofWords [0x90000002])], pool := [1] } := by decide
theorem test_free_TF2 : (after (boot [0x90000001])).map (fun t => (status t, t.mem.live 0)) =
    some ((.aborted, .invalidSegment, 1), true) := by decide
theorem test_out_TO2 : (after (preset (boot [0xA0000001]) [(1, 255)])).map (·.out) = some [255] := by decide
theorem test_out_TO5 :
    (after { preset (boot [0xA0000001]) [(1, 256)] with
      config := { Config.default with outWidePolicy := .ignore } }).map (fun t => (status t, t.out)) =
      some ((.running, .none, 1), []) := by decide
theorem test_in_TI2 : (after { boot [0xB0000001] with input := [255] }).map (fun t => (t.reg 1, t.inpos)) =
    some (0x000000FF, 1) := by decide
theorem test_in_TI3 : (after (boot [0xB0000001])).map (fun t => (t.reg 1, t.inpos)) = some (0xFFFFFFFF, 0) := by decide
theorem test_loadp_TLP5 :
    (after (preset (boot [0xC000000A] (some [0x70000000, 0x70000000])) [(1, 1), (2, 1)])).map
      (fun t => (t.pc, t.mem)) =
      some (1, { slots := 2, pool := [],
                 table := [(0, .ofWords [0x70000000, 0x70000000]), (1, .ofWords [0x70000000, 0x70000000])] }) := by decide
theorem test_loadp_TLP3 : (after (preset (boot [0xC0000001]) [(1, 2)])).map status =
    some (.aborted, .outOfBounds, 1) := by decide
theorem test_li_TJ2 : (after (preset (boot [0xDFFFFFFF]) [(7, 0xFFFFFFFF)])).map (·.reg 7) =
    some 0x01FFFFFF := by decide
theorem test_wait_keeps_state :
    after { boot [0xB0000001] with port := .interactive [] } =
      some { boot [0xB0000001] with port := .interactive [] } := by decide
theorem test_placed_word_runs : (after (State.reset.withFetchWord 32 0xD0000048)).map (fun t => (t.reg 0, t.pc)) =
    some (72, 1) := by decide
theorem test_budget_refuses_TG5 :
    (after { preset (boot [0x80000011]) [(1, 4)] with
      config := { Config.default with allocAdmit := .budget 4 } }).map status =
      some (.aborted, .resourceExhausted, 1) := by decide
theorem test_codes_R108 : [ErrKind.none, .invalidOpcode, .invalidSegment, .outOfBounds, .divideByZero, .outputRange,
    .resourceExhausted, .outOfRange, .malformedInput].map ErrKind.code = [0, 1, 2, 3, 4, 5, 6, 7, 8] := by decide

end Sys2Proof.Tests
end

