-- ==== Sys2Proof/Tests/Witnesses.lean ====
section
/-! SUPPORT. For every statement that has hypotheses, concrete values that meet all of them together, clause by clause and at the
ends of a clause's range. -/

namespace Sys2Proof.Tests

open Sys2Proof Sys2Proof.Machine

/-- The image of W9: two whole words and one trailing byte. -/
def imageW9 : List Byte := [0xD0, 0, 0, 0x48, 0x70, 0, 0, 0, 0xAB]

def rejecting : Config := { Config.default with imageTailPolicy := .reject }

def ignoring : Config := { Config.default with outWidePolicy := .ignore }

/-! ### Launch -/

theorem witness_LaunchLoadsImageBigEndian :
    (∃ s, launch Config.default imageW9 [] .sequence = some s) ∧
    imageW9[4 * 1]? = some 0x70 ∧ imageW9[4 * 1 + 1]? = some 0 ∧ imageW9[4 * 1 + 2]? = some 0 ∧
    imageW9[4 * 1 + 3]? = some 0 := ⟨⟨_, rfl⟩, by decide⟩

theorem witness_ImageOfWordsIsLoaded :
    ([0xD0000048, 0x70000000] : List Word).length < 2 ^ 32 ∧ ([0xD0000048, 0x70000000] : List Word)[1]? = some 0x70000000 := by
  decide

theorem witness_LaunchLeavesResetValues :
    (∃ s, launch Config.default imageW9 [65] .sequence = some s) ∧ (imageWords imageW9)[1]? = some 0x70000000 ∧
    Config.default.imageTailPolicy = .truncate := ⟨⟨_, rfl⟩, by decide⟩

theorem witness_LaunchTailPolicy :
    (∃ s, launch Config.default imageW9 [] .sequence = some s ∧ Config.default.imageTailPolicy = .truncate) ∧
    (∃ s, launch rejecting imageW9 [] .sequence = some s ∧ rejecting.imageTailPolicy = .reject ∧
      imageW9.length % 4 ≠ 0) := ⟨⟨_, rfl, rfl⟩, ⟨_, rfl, rfl, by decide⟩⟩

theorem witness_LaunchRefusesOversizedImage : ∃ image : List Byte, 2 ^ 32 - 1 < image.length / 4 :=
  ⟨List.replicate (2 ^ 34) 0, by rw [List.length_replicate]; decide⟩

theorem witness_EmptyImageHaltsExhausted :
    (([1, 2, 3] : List Byte).length < 4 ∧ Config.default.imageTailPolicy = .truncate) ∧
    (([] : List Byte).length < 4 ∧ rejecting.imageTailPolicy = .reject ∧ ([] : List Byte).length % 4 = 0) := by decide

theorem witness_LaunchMeetsInvariants : ∃ s, launch rejecting imageW9 [65] (.interactive [.eof]) = some s := ⟨_, rfl⟩

theorem witness_NoRunFromLaunchStops : ∃ s, launch Config.default imageW9 [65] .sequence = some s := ⟨_, rfl⟩

/-! ### Codec and decoder -/

theorem witness_CodecExtracts : getu 0x8000000000000000 1 63 = some 1 ∧ getu 0xDEADBEEF 0 5 = some 0 := by decide

theorem witness_CodecInserts :
    newu 0 1 63 1 = some 0x8000000000000000 ∧ newu 0xDEADBEEF 0 0 0 = some 0xDEADBEEF := by decide

theorem witness_CodecRoundTrip : 1 + 63 ≤ 64 ∧ 1 < 2 ^ 1 ∧ (0 + 63 ≤ 63 ∨ 63 + 1 ≤ 0) := by decide

theorem witness_DecodeReadsFormatFields :
    bits 0xC0000007 31 28 < 13 ∧ bits 0xDFFFFFFF 31 28 = 13 ∧ 13 < bits 0xE0000000 31 28 := by decide

theorem witness_DontCareBitsHaveNoEffect :
    (bits 0x0FFFFE53 31 28 = bits 0x00000053 31 28 ∧ bits 0x00000053 31 28 ≠ 13 ∧
      bits 0x0FFFFE53 8 0 = bits 0x00000053 8 0) ∧
    (bits 0x7FFFFFFF 31 28 = bits 0x70000000 31 28 ∧ bits 0x70000000 31 28 = 7) ∧
    (bits 0x800001D1 31 28 = bits 0x80000011 31 28 ∧ bits 0x80000011 31 28 = 8 ∧
      bits 0x800001D1 5 0 = bits 0x80000011 5 0) ∧
    (bits 0xB00001F9 31 28 = bits 0xB0000001 31 28 ∧ bits 0xB0000001 31 28 = 11 ∧
      bits 0xB00001F9 2 0 = bits 0xB0000001 2 0) := by decide

theorem witness_DecodeOfEncode : (Instr.li 7 0x01FFFFFF).wf = true ∧ Instr.halt.wf = true := by decide

theorem witness_DecodedInstrHasCanonicalWord : decodeInstr 0x7FFFFFFF = .run .halt := by decide

theorem witness_FormatR_and_FormatI :
    bits 0x0FFFFE53 31 28 = 0 ∧ bits 0xC0000007 31 28 = 12 ∧ bits 0xDFFFFFFF 31 28 = 13 ∧
    (0x01FFFFFF : Word).toNat < 2 ^ 25 := by decide

/-! ### The step -/

/-- A two-word program: `ADD r1, r1, r1` and HALT. -/
def addHalt : State := boot [0x30000049, 0x70000000]

theorem witness_StepRunsDecodedInstruction :
    addHalt.runState = .running ∧ addHalt.mem.wordAt 0 addHalt.pc = some 0x30000049 ∧
    decodeInstr 0x30000049 = .run (.add 1 1 1) := by decide

theorem witness_InvalidOpcodeAborts :
    ((boot [0xE0000000]).runState = .running ∧ (boot [0xE0000000]).mem.wordAt 0 0 = some 0xE0000000 ∧
      bits 0xE0000000 31 28 = 14) ∧
    ((boot [0xFFFFFFFF]).mem.wordAt 0 0 = some 0xFFFFFFFF ∧ bits 0xFFFFFFFF 31 28 = 15) := by decide

theorem witness_StreamExhaustionHalts :
    (addHalt.setPc 2).runState = .running ∧ (addHalt.setPc 2).mem.lenAt 0 = some (addHalt.setPc 2).pc := by decide

theorem witness_TerminalStatesAbsorb :
    (addHalt.halt .haltInstr).runState = .halted ∧ (addHalt.raise .invalidOpcode).runState = .aborted := by decide

theorem witness_OnlyLoadProgramSetsPc :
    (∃ t, exec (.div 0 0 1) addHalt = .next t ∧ addHalt.runState = .running ∧ t.runState = .aborted) ∧
    (∃ t, exec (.loadp 0 1) (preset addHalt [(1, 2)]) = .next t ∧ t.runState ≠ .aborted) ∧
    (∃ t, exec (.inp 1) addHalt = .next t) ∧ (receive addHalt).1 ≠ .notReady :=
  ⟨⟨_, rfl, by decide⟩, ⟨_, rfl, by decide⟩, ⟨_, rfl⟩, by decide⟩

theorem witness_FatalErrorsArePrecise :
    ∃ t, step (boot [0x50000001]) = .next t ∧ (boot [0x50000001]).runState = .running ∧ t.runState = .aborted :=
  ⟨_, rfl, by decide⟩

theorem witness_ErrorKindsByInstruction :
    ∃ t, exec (.free 1) addHalt = .next t ∧ addHalt.runState = .running ∧ t.runState = .aborted := ⟨_, rfl, by decide⟩

theorem witness_HaltsOnlyOnHaltOrExhaustion : ∃ t, step addHalt = .next t ∧ addHalt.runState = .running :=
  ⟨_, rfl, by decide⟩

theorem witness_PlacedWordIsRun : decodeInstr 0xD0000048 = .run (.li 0 72) := by decide

/-! ### One instruction -/

theorem witness_CmovResult : (preset addHalt [(3, 1)]).reg 3 ≠ 0 ∧ addHalt.reg 3 = 0 := by decide

/-- A live segment 1 of two words, with `x[1] = 1`, `x[2] = 1` (its last offset) and `x[3] = 2` (its length). -/
def twoSegments : State := preset (boot [0x70000000] (some [5, 0])) [(1, 1), (2, 1), (3, 2)]

theorem witness_SloadResult :
    twoSegments.mem.wordAt (twoSegments.reg 1) (twoSegments.reg 2) = some 0 ∧
    (twoSegments.mem.lenAt (twoSegments.reg 1) = some 2 ∧ twoSegments.reg 2 < 2) ∧
    twoSegments.mem.lenAt (twoSegments.reg 3) = none ∧ (2 : Word) ≤ twoSegments.reg 3 := by decide

theorem witness_SstoreResult :
    (twoSegments.mem.lenAt (twoSegments.reg 1) = some 2 ∧ twoSegments.reg 2 < 2) ∧
    twoSegments.mem.lenAt (twoSegments.reg 3) = none ∧ (2 : Word) ≤ twoSegments.reg 3 := by decide

theorem witness_DivResult : (preset addHalt [(3, 1)]).reg 3 ≠ 0 ∧ addHalt.reg 3 = 0 := by decide

/-- The two words below 2. -/
theorem word_lt_two {i : Word} (h : i.toNat < 2) : i = 0 ∨ i = 1 := by
  have : i.toNat = 0 ∨ i.toNat = 1 := by omega
  rcases this with h | h
  · exact .inl (BitVec.eq_of_toNat_eq h)
  · exact .inr (BitVec.eq_of_toNat_eq h)

/-- Two live segments and an empty pool are sound (R33). -/
theorem twoSegments_sound : twoSegments.mem.Sound where
  canonical := by decide
  slotsPositive := by decide
  slotsBounded := by decide
  poolNamesSlots := fun _ hi => nomatch (show _ ∈ ([] : List Word) from hi)
  poolNodup := by decide
  unmappedIffPooled := fun i hi => by rcases word_lt_two hi with rfl | rfl <;> decide

/-- The state of `twoSegments` once segment 1 is freed: the pool holds 1. -/
def freedSegment : State := twoSegments.setMem { slots := 2, table := [(0, .ofWords [0x70000000])], pool := [1] }

theorem freedSegment_sound : freedSegment.mem.Sound where
  canonical := by decide
  slotsPositive := by decide
  slotsBounded := by decide
  poolNamesSlots := fun _ hi => by obtain rfl := List.mem_singleton.1 hi; decide
  poolNodup := by decide
  unmappedIffPooled := fun i hi => by rcases word_lt_two hi with rfl | rfl <;> decide

theorem twoSegments_inv : twoSegments.Inv where
  memory := twoSegments_sound
  stream := ⟨_, rfl, by decide⟩
  causeIffHalted := by decide
  kindIffAborted := by decide
  inputWithin := by decide

theorem witness_AllocResult :
    (twoSegments.mem.Sound ∧ allocAdmits twoSegments (twoSegments.reg 0) = true ∧
      ¬ (twoSegments.mem.pool = [] ∧ twoSegments.mem.slots = 2 ^ 32) ∧ twoSegments.mem.pool = []) ∧
    (freedSegment.mem.Sound ∧ allocAdmits freedSegment (freedSegment.reg 3) = true ∧
      ¬ (freedSegment.mem.pool = [] ∧ freedSegment.mem.slots = 2 ^ 32) ∧ freedSegment.mem.pool = 1 :: []) :=
  ⟨⟨twoSegments_sound, by decide⟩, freedSegment_sound, by decide⟩

theorem witness_AllocExhausts :
    allocAdmits { twoSegments with config := { Config.default with allocAdmit := .budget 3 } } 1 = false ∧
    ((twoSegments.setMem { slots := 4294967296, table := [], pool := [] }).mem.pool = [] ∧
      (twoSegments.setMem { slots := 4294967296, table := [], pool := [] }).mem.slots = 2 ^ 32) := by decide

theorem witness_FreeResult :
    (twoSegments.reg 1 ≠ 0 ∧ twoSegments.mem.live (twoSegments.reg 1) = true) ∧ twoSegments.reg 0 = 0 ∧
    twoSegments.mem.live (twoSegments.reg 3) = false := by decide

theorem witness_OutResult :
    ((preset addHalt [(1, 255)]).reg 1).toNat < 256 ∧ 256 ≤ ((preset addHalt [(1, 256)]).reg 1).toNat ∧
    (preset addHalt [(1, 256)]).config.outWidePolicy = .abort ∧
    ({ preset addHalt [(1, 256)] with config := ignoring } : State).config.outWidePolicy = .ignore := by decide

theorem witness_InResultFromSequence :
    (({ addHalt with input := [65] } : State).port = .sequence ∧
      ({ addHalt with input := [65] } : State).input[0]? = some 65) ∧
    (addHalt.port = .sequence ∧ addHalt.input.length ≤ addHalt.inpos) := by decide

theorem witness_InResultInteractive :
    (addHalt.setPort (.interactive [.byte 65])).port = .interactive (.byte 65 :: []) ∧
    (addHalt.setPort (.interactive [.eof])).port = .interactive (.eof :: []) ∧
    PortAnswer.byte 65 ≠ .notReady ∧ PortAnswer.eof ≠ .notReady := by decide

theorem witness_InputWaitKeepsState :
    ∀ answers ∈ [[], [PortAnswer.notReady, .byte 65]],
      ((boot [0xB0000001]).setPort (.interactive answers)).runState = .running ∧
      ((boot [0xB0000001]).setPort (.interactive answers)).mem.wordAt 0 0 = some 0xB0000001 ∧
      decodeInstr 0xB0000001 = .run (.inp 1) ∧
      (receive ((boot [0xB0000001]).setPort (.interactive answers))).1 = .notReady := by decide

theorem witness_LoadProgramJumps :
    addHalt.reg 0 = 0 ∧ addHalt.mem.lenAt 0 = some 2 ∧ (preset addHalt [(1, 2)]).reg 1 ≤ 2 ∧
    (2 : Word) < (preset addHalt [(1, 3)]).reg 1 := by decide

theorem witness_LoadProgramInstalls :
    twoSegments.reg 1 ≠ 0 ∧ (twoSegments.mem.lenAt (twoSegments.reg 1) = some 2 ∧ twoSegments.reg 3 ≤ 2) ∧
    (twoSegments.reg 3 ≠ 0 ∧ twoSegments.mem.lenAt (twoSegments.reg 3) = none) ∧
    (2 : Word) < (preset twoSegments [(4, 3)]).reg 4 := by decide

/-! ### Several instructions -/

theorem witness_AllocReusesLastFreed :
    ∃ t u, exec (.free 1) twoSegments = .next t ∧ twoSegments.runState = .running ∧ t.runState = .running ∧
      exec (.alloc 4 3) t = .next u ∧ u.runState = .running ∧ (1 : Word) < t.reg 3 :=
  ⟨_, _, rfl, rfl, rfl, rfl, by decide⟩

theorem witness_UseAfterFreeAborts :
    ∃ t, exec (.free 1) twoSegments = .next t ∧ twoSegments.runState = .running ∧ t.runState = .running ∧
      t.reg 2 = twoSegments.reg 1 := ⟨_, rfl, by decide⟩

theorem witness_StoreIsSeenByFetch :
    ∃ t, exec (.sstore 0 0 1) (preset addHalt [(1, 0x70000000)]) = .next t ∧
      (preset addHalt [(1, 0x70000000)]).runState = .running ∧ t.runState = .running ∧
      (preset addHalt [(1, 0x70000000)]).reg 0 = 0 ∧ t.pc = (preset addHalt [(1, 0x70000000)]).reg 0 ∧
      decodeInstr ((preset addHalt [(1, 0x70000000)]).reg 1) = .run .halt := ⟨_, rfl, by decide⟩

theorem witness_InstalledCopyIsIndependent :
    ∃ t, exec (.loadp 1 0) twoSegments = .next t ∧ twoSegments.runState = .running ∧ t.runState = .running ∧
      twoSegments.reg 1 ≠ 0 ∧ (∃ u, exec (.sstore 1 2 3) t = .next u) ∧ (∃ u, exec (.sstore 0 2 3) t = .next u) ∧
      t.reg 1 = twoSegments.reg 1 ∧ t.reg 0 = 0 :=
  ⟨_, rfl, rfl, rfl, by decide, ⟨_, rfl⟩, ⟨_, rfl⟩, by decide⟩

theorem witness_StepKeepsInvariants : twoSegments.Inv ∧ ∃ t, step twoSegments = .next t :=
  ⟨twoSegments_inv, _, rfl⟩

theorem witness_StepKeepsMemoryCanonical : freedSegment.mem.wf = true ∧ ∃ t, step freedSegment = .next t :=
  ⟨by decide, _, rfl⟩

theorem witness_RegistersWrittenByInstruction :
    (∃ t, exec (.add 1 1 1) addHalt = .next t) ∧ addHalt.reg 3 = 0 := ⟨⟨_, rfl⟩, by decide⟩

theorem witness_EffectsByInstruction :
    (∃ t, exec (.out 1) addHalt = .next t) ∧ (∃ t, exec (.inp 1) addHalt = .next t) ∧
    ∃ t, exec (.sstore 1 2 3) twoSegments = .next t := ⟨⟨_, rfl⟩, ⟨_, rfl⟩, ⟨_, rfl⟩⟩

theorem witness_SlotsOnlyGrow :
    ∃ t, step (boot [0x80000011]) = .next t ∧ t.mem.slots = (boot [0x80000011]).mem.slots + 1 := ⟨_, rfl, by decide⟩

theorem witness_LiveSegmentsKeepTheirLength :
    ∃ t, twoSegments.Inv ∧ step twoSegments = .next t ∧ (1 : Word) ≠ 0 ∧
      twoSegments.mem.lenAt 1 = some 2 ∧ t.mem.lenAt 1 = some 2 := ⟨_, twoSegments_inv, rfl, by decide⟩

theorem witness_OnlyInReadsTheInput :
    (addHalt.config.allocAdmit ≠ .uninterpreted ∧ (∀ c, Instr.alloc 1 1 ≠ .inp c) ∧
      ∃ t, exec (.alloc 1 1) addHalt = .next t) ∧
    ((∀ c, Instr.add 1 1 1 ≠ .inp c) ∧ (∀ b c, Instr.add 1 1 1 ≠ .alloc b c) ∧
      ∃ t, exec (.add 1 1 1) addHalt = .next t) :=
  ⟨⟨by decide, by decide, _, rfl⟩, by decide, by decide, _, rfl⟩

end Sys2Proof.Tests
end

section
/-! SUPPORT. What any instruction can do to a state, said once as a relation, and what each such effect leaves in the
registers and in `pc`. -/

namespace Sys2Proof

/-- The register an instruction may write (R17). -/
def Instr.written : Instr → List Reg
  | .cmov a _ _ => [a]
  | .sload a _ _ => [a]
  | .sstore _ _ _ => []
  | .add a _ _ => [a]
  | .mul a _ _ => [a]
  | .div a _ _ => [a]
  | .nand a _ _ => [a]
  | .halt => []
  | .alloc b _ => [b]
  | .free _ => []
  | .out _ => []
  | .inp c => [c]
  | .loadp _ _ => []
  | .li a _ => [a]

end Sys2Proof

namespace Sys2Proof.Machine

/-! ### The kinds a request answers (R108) -/

theorem memRead_error {m : Memory} {i o : Word} {e : ErrKind} (h : memRead m i o = .error e) : e ∈ stepKinds := by
  obtain ⟨-, h'⟩ | ⟨_, -, -, h'⟩ | ⟨_, _, -, -, -, h'⟩ := memRead_cases m i o <;>
    cases h'.symm.trans h <;> decide

theorem memWrite_error {m : Memory} {i o v : Word} {e : ErrKind} (h : memWrite m i o v = .error e) :
    e ∈ stepKinds := by
  obtain ⟨-, h'⟩ | ⟨_, -, -, h'⟩ | ⟨_, -, -, h'⟩ := memWrite_cases m i o v <;>
    cases h'.symm.trans h <;> decide

theorem memAlloc_error {m : Memory} {admitted : Bool} {n : Word} {e : ErrKind}
    (h : memAlloc m admitted n = .error e) : e ∈ stepKinds := by
  obtain ⟨-, h'⟩ | ⟨_, _, -, -, h'⟩ | ⟨-, -, -, h'⟩ := memAlloc_cases m admitted n <;>
    cases h'.symm.trans h
  decide

theorem memFree_error {m : Memory} {i : Word} {e : ErrKind} (h : memFree m i = .error e) : e ∈ stepKinds := by
  obtain ⟨-, h'⟩ | ⟨_, -, -, h'⟩ := memFree_cases m i <;> cases h'.symm.trans h
  decide

theorem memInstall_error {m : Memory} {i o : Word} {e : ErrKind} (h : memInstall m i o = .error e) :
    e ∈ stepKinds := by
  obtain ⟨-, h'⟩ | ⟨_, -, -, h'⟩ | ⟨_, -, -, -, h'⟩ | ⟨_, -, -, -, h'⟩ := memInstall_cases m i o <;>
    cases h'.symm.trans h <;> decide

theorem ne_none_of_mem_stepKinds {e : ErrKind} (h : e ∈ stepKinds) : e ≠ .none := by
  rintro rfl
  exact absurd h (by decide)

/-! ### The effects -/

/-- What one instruction can leave of a state `s` (R84, R93 to R110): the fatal outcome, no change, a register written, or
the change its row names. A request of memory stands with its answer, so that a proof about a request speaks of the
instruction too. -/
inductive Effect (s : State) : Instr → State → Prop where
  | abort {i : Instr} {e : ErrKind} (kind : e ∈ stepKinds) : Effect s i (s.raise e)
  | keep {i : Instr} (notLoadp : ∀ b c, i ≠ .loadp b c) : Effect s i s
  | write {i : Instr} {r : Reg} (v : Word) (isWritten : r ∈ i.written) : Effect s i (s.setReg r v)
  | store {a b c : Reg} {m : Memory} (answer : memWrite s.mem (s.reg a) (s.reg b) (s.reg c) = .ok m) :
      Effect s (.sstore a b c) (s.setMem m)
  | halt : Effect s .halt (s.halt .haltInstr)
  | alloc {b c : Reg} {r : Word × Memory}
      (answer : memAlloc s.mem (allocAdmits s (s.reg c)) (s.reg c) = .ok r) :
      Effect s (.alloc b c) ((s.setMem r.2).setReg b r.1)
  | free {c : Reg} {m : Memory} (answer : memFree s.mem (s.reg c) = .ok m) : Effect s (.free c) (s.setMem m)
  | emit {c : Reg} (b : Byte) : Effect s (.out c) (s.emit b)
  | input {c : Reg} (v : Word) : Effect s (.inp c) ((receive s).2.setReg c v)
  | await {c : Reg} (notReady : s.inputNotReady) : Effect s (.inp c) (receive s).2.awaitInput
  | install {b c : Reg} {m : Memory} (answer : memInstall s.mem (s.reg b) (s.reg c) = .ok m) :
      Effect s (.loadp b c) ((s.setMem m).setPc (s.reg c))

/-- A request that may fail has an effect when its error is one a step can raise and its answer has one. -/
theorem Effect.of_orRaise {α : Type} {s t : State} {i : Instr} {answer : Except ErrKind α} {k : α → State}
    (h : orRaise s answer k = .next t) (herr : ∀ e, answer = .error e → e ∈ stepKinds)
    (hok : ∀ v, answer = .ok v → Effect s i (k v)) : Effect s i t := by
  obtain ⟨e, he, rfl⟩ | ⟨v, hv, rfl⟩ := (orRaise_next s answer k t).1 h
  · exact .abort (herr e he)
  · exact hok v hv

/-- What an instruction answers is one of the effects. -/
theorem exec_effect {i : Instr} {s t : State} (h : exec i s = .next t) : Effect s i t := by
  cases i with
  | cmov a b c =>
    obtain ⟨-, rfl⟩ | ⟨-, rfl⟩ := execCmov_next h
    · exact .write _ (List.mem_singleton_self a)
    · exact .keep nofun
  | sload a b c =>
    exact .of_orRaise h (fun _ => memRead_error) fun v _ => .write v (List.mem_singleton_self a)
  | sstore a b c => exact .of_orRaise h (fun _ => memWrite_error) fun _ => .store
  | add a b c => exact Host.Outcome.next.inj h ▸ .write _ (List.mem_singleton_self a)
  | mul a b c => exact Host.Outcome.next.inj h ▸ .write _ (List.mem_singleton_self a)
  | div a b c =>
    obtain ⟨-, rfl⟩ | ⟨-, rfl⟩ := execDiv_next h
    · exact .abort (by decide)
    · exact .write _ (List.mem_singleton_self a)
  | nand a b c => exact Host.Outcome.next.inj h ▸ .write _ (List.mem_singleton_self a)
  | halt => exact Host.Outcome.next.inj h ▸ .halt
  | alloc b c => exact .of_orRaise h (fun _ => memAlloc_error) fun _ => .alloc
  | free c => exact .of_orRaise h (fun _ => memFree_error) fun _ => .free
  | out c =>
    obtain ⟨-, rfl⟩ | ⟨-, -, rfl⟩ | ⟨-, -, rfl⟩ := execOut_next h
    · exact .emit _
    · exact .abort (by decide)
    · exact .keep nofun
  | inp c =>
    obtain ⟨b, -, rfl⟩ | ⟨-, rfl⟩ | ⟨hn, rfl⟩ := execInp_next h
    · exact .input _
    · exact .input _
    · exact .await hn
  | loadp b c => exact .of_orRaise h (fun _ => memInstall_error) fun _ => .install
  | li a imm => exact Host.Outcome.next.inj h ▸ .write _ (List.mem_singleton_self a)

/-! ### What receiving leaves unchanged (R119) -/

@[simp] theorem receive_reg (s : State) (r : Reg) : (receive s).2.reg r = s.reg r := by
  obtain ⟨n, p, e, -⟩ := receive_state s
  rw [e]; rfl

@[simp] theorem receive_pc (s : State) : (receive s).2.pc = s.pc := by
  obtain ⟨n, p, e, -⟩ := receive_state s
  rw [e]; rfl

@[simp] theorem receive_mem (s : State) : (receive s).2.mem = s.mem := by
  obtain ⟨n, p, e, -⟩ := receive_state s
  rw [e]; rfl

@[simp] theorem receive_runState (s : State) : (receive s).2.runState = s.runState := by
  obtain ⟨n, p, e, -⟩ := receive_state s
  rw [e]; rfl

/-! ### Registers and `pc` (R17, R19, R110) -/

theorem Effect.sameRegs {i : Instr} {s t : State} (h : Effect s i t) : SameRegs i.written s t := by
  cases h with
  | write v hr => exact fun r hr' => State.setReg_reg_ne _ _ r v fun e => hr' (e ▸ hr)
  | @alloc b _ r _ => exact sameRegs_setReg (s.setMem r.2) b r.1
  | @input c v => exact fun r hr => (sameRegs_setReg (receive s).2 c v r hr).trans (receive_reg s r)
  | await _ => exact fun r _ => receive_reg s r
  | _ => exact fun _ _ => rfl

/-- An instruction that ends the run `ABORTED` does nothing but record that and the kind (R110). -/
theorem Effect.eq_raise_of_aborted {i : Instr} {s t : State} (h : Effect s i t) (hs : s.runState ≠ .aborted)
    (ht : t.runState = .aborted) : t = s.raise t.errKind := by
  cases h with
  | abort _ => rfl
  | halt => exact nomatch ht
  | input _ => exact absurd ((receive_runState s).symm.trans ht) hs
  | await _ => exact absurd ((receive_runState s).symm.trans ht) hs
  | _ => exact absurd ht hs

theorem Effect.pc_of_loadp {b c : Reg} {s t : State} (h : Effect s (.loadp b c) t)
    (ht : t.runState ≠ .aborted) : t.pc = s.reg c := by
  cases h with
  | abort _ => exact absurd rfl ht
  | keep hi => exact absurd rfl (hi b c)
  | write _ hr => exact absurd hr List.not_mem_nil
  | install _ => rfl

theorem Effect.pc_of_not_loadp {i : Instr} {s t : State} (h : Effect s i t) (hl : ∀ b c, i ≠ .loadp b c)
    (hw : ∀ c, i = .inp c → ¬ s.inputNotReady) : t.pc = s.pc := by
  cases h with
  | @input c _ => exact receive_pc s
  | @await c hn => exact absurd hn (hw c rfl)
  | @install b c _ _ => exact absurd rfl (hl b c)
  | _ => rfl

end Sys2Proof.Machine
end

section
/-! SUPPORT. What an instruction does to memory and to the invariants of R33. -/

namespace Sys2Proof.Machine

/-! ### Memory's canonical form (log 8) -/

theorem Effect.mem_wf {i : Instr} {s t : State} (h : Effect s i t) (hm : s.mem.wf = true) : t.mem.wf = true := by
  cases h with
  | store answer => exact memWrite_wf hm answer
  | alloc answer => exact memAlloc_wf hm answer
  | free answer => exact memFree_wf hm answer
  | install answer => exact memInstall_wf hm answer
  | input _ => exact (receive_mem s).symm ▸ hm
  | await _ => exact (receive_mem s).symm ▸ hm
  | _ => exact hm

/-! ### The slot count (R28) -/

theorem memWrite_slots {m m' : Memory} {i o v : Word} (h : memWrite m i o v = .ok m') : m'.slots = m.slots := by
  obtain ⟨-, e⟩ | ⟨_, -, -, e⟩ | ⟨_, -, -, e⟩ := memWrite_cases m i o v <;> cases e.symm.trans h
  rfl

theorem memAlloc_slots {m : Memory} {admitted : Bool} {n : Word} {r : Word × Memory}
    (h : memAlloc m admitted n = .ok r) :
    r.2.slots = m.slots ∨ (r.2.slots = m.slots + 1 ∧ m.pool = []) := by
  obtain ⟨-, e⟩ | ⟨_, _, -, -, e⟩ | ⟨-, hp, -, e⟩ := memAlloc_cases m admitted n <;> cases e.symm.trans h
  · exact .inl rfl
  · exact .inr ⟨rfl, hp⟩

theorem memFree_slots {m m' : Memory} {i : Word} (h : memFree m i = .ok m') : m'.slots = m.slots := by
  obtain ⟨-, e⟩ | ⟨_, -, -, e⟩ := memFree_cases m i <;> cases e.symm.trans h
  rfl

theorem memInstall_slots {m m' : Memory} {i o : Word} (h : memInstall m i o = .ok m') : m'.slots = m.slots := by
  obtain ⟨-, e⟩ | ⟨_, -, -, e⟩ | ⟨_, -, -, -, e⟩ | ⟨_, -, -, -, e⟩ := memInstall_cases m i o <;>
    cases e.symm.trans h <;> rfl

theorem Effect.slots {i : Instr} {s t : State} (h : Effect s i t) :
    t.mem.slots = s.mem.slots ∨
      (t.mem.slots = s.mem.slots + 1 ∧ s.mem.pool = [] ∧ ∃ b c, i = .alloc b c) := by
  cases h with
  | store answer => exact .inl (memWrite_slots answer)
  | @alloc b c _ answer => exact (memAlloc_slots answer).imp_right fun ⟨hs, hp⟩ => ⟨hs, hp, b, c, rfl⟩
  | free answer => exact .inl (memFree_slots answer)
  | install answer => exact .inl (memInstall_slots answer)
  | input _ => exact .inl (congrArg Memory.slots (receive_mem s))
  | await _ => exact .inl (congrArg Memory.slots (receive_mem s))
  | _ => exact .inl rfl

/-! ### Lengths (R29) -/

theorem memWrite_lenAt {m m' : Memory} {i o v : Word} (h : memWrite m i o v = .ok m') (j : Word) :
    m'.lenAt j = m.lenAt j := by
  obtain ⟨-, e⟩ | ⟨_, -, -, e⟩ | ⟨g, hg, -, e⟩ := memWrite_cases m i o v <;> cases e.symm.trans h
  rw [Memory.lenAt, Memory.lenAt, Memory.segment_mapSegment m i j _ (Memory.lt_slots_of_segment hg)]
  by_cases hj : i = j
  · subst hj
    simp [hg]
  · rw [if_neg hj]

/-- A live index is not free to be allocated (I3), so `Alloc` keeps its segment. -/
theorem memAlloc_segment_of_live {m : Memory} (hm : m.Sound) {admitted : Bool} {n : Word}
    {r : Word × Memory} (h : memAlloc m admitted n = .ok r) {j : Word} {g : Segment} (hj : m.segment j = some g) :
    r.2.segment j = some g := by
  have hlt := Memory.lt_slots_of_segment hj
  have hfree : j ∉ m.pool := fun hmem => nomatch hj.symm.trans ((hm.unmappedIffPooled j hlt).2 hmem)
  rw [(hm.memAlloc h).2 j hfree hlt, hj]

theorem memFree_segment {m m' : Memory} {i : Word} (h : memFree m i = .ok m') (j : Word) :
    i ≠ 0 ∧ m'.segment j = if i = j then none else m.segment j := by
  obtain ⟨-, e⟩ | ⟨_, h0, -, e⟩ := memFree_cases m i <;> cases e.symm.trans h
  exact ⟨h0, Memory.segment_erase m i j _⟩

/-- What `Install` leaves at index 0 is no shorter than the target (R46, D8). -/
theorem memInstall_segment_zero {m m' : Memory} {i o : Word} (h : memInstall m i o = .ok m') :
    ∃ g, m'.segment 0 = some g ∧ o ≤ g.len := by
  obtain ⟨-, e⟩ | ⟨_, -, -, e⟩ | ⟨g, h0, hg, ho, e⟩ | ⟨g, -, hg, ho, e⟩ := memInstall_cases m i o <;>
    cases e.symm.trans h
  · exact ⟨g, h0 ▸ hg, ho⟩
  · exact ⟨g, by rw [Memory.segment_install hg, if_pos rfl], ho⟩

theorem memInstall_segment_ne_zero {m m' : Memory} {i o : Word} (h : memInstall m i o = .ok m') {j : Word}
    (hj : j ≠ 0) : m'.segment j = m.segment j := by
  obtain ⟨-, e⟩ | ⟨_, -, -, e⟩ | ⟨_, -, -, -, e⟩ | ⟨g, -, hg, -, e⟩ := memInstall_cases m i o <;>
    cases e.symm.trans h
  · rfl
  · rw [Memory.segment_install hg, if_neg hj.symm]

theorem Effect.lenAt {i : Instr} {s t : State} (h : Effect s i t) (hm : s.mem.Sound) {j m n : Word} (hj : j ≠ 0)
    (hs : s.mem.lenAt j = some m) (ht : t.mem.lenAt j = some n) : n = m := by
  suffices same : t.mem.lenAt j = s.mem.lenAt j from Option.some.inj (ht.symm.trans (same.trans hs))
  cases h with
  | store answer => exact memWrite_lenAt answer j
  | alloc answer =>
    obtain ⟨g, hg, -⟩ := (Memory.lenAt_eq_some _ _ _).1 hs
    exact Memory.lenAt_congr ((memAlloc_segment_of_live hm answer hg).trans hg.symm)
  | @free c _ answer =>
    obtain ⟨g, hg, -⟩ := (Memory.lenAt_eq_some _ _ _).1 ht
    have seg := (memFree_segment answer j).2
    split at seg
    · exact nomatch hg.symm.trans seg
    · exact Memory.lenAt_congr seg
  | install answer => exact Memory.lenAt_congr (memInstall_segment_ne_zero answer hj)
  | input _ => exact congrArg (Memory.lenAt · j) (receive_mem s)
  | await _ => exact congrArg (Memory.lenAt · j) (receive_mem s)
  | _ => rfl

/-! ### Soundness of memory (I2 to I4) -/

theorem Memory.Sound.memWrite {m m' : Memory} (hm : m.Sound) {i o v : Word} (h : memWrite m i o v = .ok m') :
    m'.Sound := by
  obtain ⟨-, e⟩ | ⟨_, -, -, e⟩ | ⟨g, hg, ho, e⟩ := memWrite_cases m i o v <;> cases e.symm.trans h
  exact hm.mapSegment hg (Segment.withWord_wf v (Memory.segment_wf hm.canonical hg) ho)

/-- A sound memory has a slot 0, and it is Mapped (R29). -/
theorem Memory.Sound.segment_zero {m : Memory} (hm : m.Sound) : ∃ g, m.segment 0 = some g := by
  cases hg : m.segment 0 with
  | some g => exact ⟨g, rfl⟩
  | none => exact absurd ((hm.unmappedIffPooled 0 hm.slotsPositive).1 hg) hm.zero_not_pooled

theorem Memory.Sound.memInstall {m m' : Memory} (hm : m.Sound) {i o : Word} (h : memInstall m i o = .ok m') :
    m'.Sound := by
  obtain ⟨-, e⟩ | ⟨_, -, -, e⟩ | ⟨_, -, -, -, e⟩ | ⟨g, -, hg, -, e⟩ := memInstall_cases m i o <;>
    cases e.symm.trans h
  · exact hm
  · obtain ⟨g0, hg0⟩ := hm.segment_zero
    exact hm.mapSegment hg0 (Memory.segment_wf hm.canonical hg)

/-! ### The invariants (R33) -/

/-- The invariants after a change of memory and `pc` alone. -/
theorem State.Inv.setMem_setPc {s : State} (h : s.Inv) {m : Memory} {g : Segment} {p : Word} (hm : m.Sound)
    (hg : m.segment 0 = some g) (hp : p ≤ g.len) : ((s.setMem m).setPc p).Inv :=
  ⟨hm, ⟨g, hg, hp⟩, h.causeIffHalted, h.kindIffAborted, h.inputWithin⟩

/-- The invariants after a change of memory that keeps the length of segment 0. -/
theorem State.Inv.setMem {s : State} (h : s.Inv) {m : Memory} (hm : m.Sound)
    (hl : m.lenAt 0 = s.mem.lenAt 0) : (s.setMem m).Inv := by
  obtain ⟨g, hg, hp⟩ := h.stream
  obtain ⟨g', hg', he⟩ := (Memory.lenAt_eq_some m 0 g.len).1
    (hl.trans ((Memory.lenAt_eq_some _ _ _).2 ⟨g, hg, rfl⟩))
  exact h.setMem_setPc hm hg' (he ▸ hp)

theorem State.Inv.setReg {s : State} (h : s.Inv) (r : Reg) (v : Word) : (s.setReg r v).Inv :=
  ⟨h.memory, h.stream, h.causeIffHalted, h.kindIffAborted, h.inputWithin⟩

theorem State.Inv.emit {s : State} (h : s.Inv) (b : Byte) : (s.emit b).Inv :=
  ⟨h.memory, h.stream, h.causeIffHalted, h.kindIffAborted, h.inputWithin⟩

theorem State.Inv.raise {s : State} (h : s.Inv) (hr : s.runState = .running) {e : ErrKind} (he : e ≠ .none) :
    (s.raise e).Inv := by
  have cause : s.haltCause = .none := not_not.1 fun hc => by simpa [hr] using h.causeIffHalted.1 hc
  exact ⟨h.memory, h.stream, by simp [cause], by simp [he], h.inputWithin⟩

theorem State.Inv.halt {s : State} (h : s.Inv) (hr : s.runState = .running) {c : HaltCause} (hc : c ≠ .none) :
    (s.halt c).Inv := by
  have kind : s.errKind = .none := not_not.1 fun he => by simpa [hr] using h.kindIffAborted.1 he
  exact ⟨h.memory, h.stream, by simp [hc], by simp [kind], h.inputWithin⟩

theorem State.Inv.receive {s : State} (h : s.Inv) : (receive s).2.Inv := by
  obtain ⟨n, p, e, hn⟩ := receive_state s
  rw [e]
  refine ⟨h.memory, h.stream, h.causeIffHalted, h.kindIffAborted, ?_⟩
  change n ≤ s.input.length
  have := h.inputWithin
  omega

/-- The wait of R90 takes fetch's increment back, so it keeps the invariants where `pc` is not 0. -/
theorem State.Inv.awaitInput {s : State} (h : s.Inv) (hp : s.pc ≠ 0) : s.awaitInput.Inv := by
  obtain ⟨g, hg, hle⟩ := h.stream
  exact ⟨h.memory, ⟨g, hg, by simp; bv_omega⟩, h.causeIffHalted, h.kindIffAborted, h.inputWithin⟩

/-- Fetch advances `pc` past a word of segment 0, so to its end at most (R19). -/
theorem State.Inv.advance {s : State} (h : s.Inv) {w : Word} (hw : s.mem.wordAt 0 s.pc = some w) :
    (s.setPc (s.pc + 1)).Inv := by
  obtain ⟨g, hg, hgw⟩ := (Memory.wordAt_eq_some _ _ _ _).1 hw
  have hlt : s.pc.toNat < g.len.toNat := Segment.lt_len_of_wordAt hgw
  refine h.setMem_setPc h.memory hg ?_
  rw [BitVec.le_def, pc_succ_toNat hw]
  exact hlt

/-- No effect of a running core past its fetch breaks an invariant. -/
theorem Effect.inv {i : Instr} {s t : State} (h : Effect s i t) (hs : s.Inv) (hr : s.runState = .running)
    (hp : s.pc ≠ 0) : t.Inv := by
  cases h with
  | abort kind => exact hs.raise hr (ne_none_of_mem_stepKinds kind)
  | keep _ => exact hs
  | write v _ => exact hs.setReg _ v
  | store answer => exact hs.setMem (hs.memory.memWrite answer) (memWrite_lenAt answer 0)
  | halt => exact hs.halt hr (by decide)
  | alloc answer =>
    obtain ⟨g, hg, hle⟩ := hs.stream
    exact (hs.setMem_setPc (hs.memory.memAlloc answer).1 (memAlloc_segment_of_live hs.memory answer hg) hle).setReg _ _
  | free answer =>
    obtain ⟨hne, seg⟩ := memFree_segment answer 0
    exact hs.setMem (hs.memory.memFree answer) (Memory.lenAt_congr (seg.trans (if_neg hne)))
  | emit b => exact hs.emit b
  | input v => exact hs.receive.setReg _ v
  | await _ => exact hs.receive.awaitInput ((receive_pc s).symm ▸ hp)
  | install answer =>
    obtain ⟨g, hg, hle⟩ := memInstall_segment_zero answer
    exact hs.setMem_setPc (hs.memory.memInstall answer) hg hle

theorem State.Inv.step {s t : State} (h : s.Inv) (ht : step s = .next t) : t.Inv := by
  obtain ⟨-, rfl⟩ | ⟨hr, -, rfl⟩ | ⟨w, n, hr, hw, -, rfl⟩ | ⟨w, i, hr, hw, -, hx⟩ := step_cases ht
  · exact h
  · exact h.halt hr (by decide)
  · exact (h.advance hw).raise hr (by decide)
  · have hpc : s.pc + 1 ≠ 0 := fun e =>
      Nat.succ_ne_zero _ ((pc_succ_toNat hw).symm.trans (congrArg BitVec.toNat e))
    exact (exec_effect hx).inv (h.advance hw) hr hpc

/-- Fetch never fails where (I1) holds (R47), so a step answers a next state. -/
theorem State.Inv.step_total {s : State} (h : s.Inv) : ∃ t, Machine.step s = .next t := by
  by_cases hr : s.runState = .running
  · obtain ⟨g, hg, hp⟩ := h.stream
    obtain ⟨w, hw⟩ | he := fetchWord_not_broken hg hp
    · rw [step_of_word hr ((fetchWord_eq_word s w).1 hw), runWord]
      split
      · exact exec_total _ _
      · exact ⟨_, rfl⟩
    · exact ⟨_, step_of_exhausted hr ((fetchWord_eq_exhausted s).1 he)⟩
  · exact ⟨s, step_of_terminal hr⟩

/-- Every run from a state that meets the invariants goes on, and keeps them. -/
theorem State.Inv.run {s : State} (h : s.Inv) (k : Nat) : ∃ t, core.run k s = .next t ∧ State.Inv t := by
  induction k generalizing s with
  | zero => exact ⟨s, rfl, h⟩
  | succ k ih =>
    obtain ⟨u, hu⟩ := h.step_total
    obtain ⟨t, ht, hi⟩ := ih (h.step hu)
    refine ⟨t, ?_, hi⟩
    simp only [Host.Core.run, Host.Check.core_step, hu]
    exact ht

end Sys2Proof.Machine
end

section
/-! SUPPORT. The state a launch leaves (R34, R124). -/

namespace Sys2Proof.Machine

theorem State.launched_reg (config : Config) (g : Segment) (input : List Byte) (port : InputPort) (r : Reg) :
    (State.launched config g input port).reg r = 0 := by
  simp [State.launched, State.reset, State.reg]

/-- The memory of one canonical segment, at index 0, is sound. -/
theorem Memory.Sound.of_segment_zero {g : Segment} (hg : g.wf = true) :
    Memory.Sound { slots := 1, table := [(0, g)], pool := [] } where
  canonical := by simp [Memory.wf, sparseRising, sparseRisingFrom, sparseBelow, hg]
  slotsPositive := le_rfl
  slotsBounded := Nat.one_le_two_pow
  poolNamesSlots := fun _ hi => absurd hi List.not_mem_nil
  poolNodup := List.nodup_nil
  unmappedIffPooled := fun i hi => by
    have h0 : i.toNat = 0 := Nat.lt_one_iff.1 hi
    simp [Memory.segment, sparseFind, h0]

theorem State.launched_inv {config : Config} {ws : List Word} {input : List Byte} {port : InputPort}
    (h : ws.length < 2 ^ 32) : (State.launched config (.ofWords ws) input port).Inv where
  memory := .of_segment_zero (Segment.ofWords_wf h)
  stream := ⟨_, rfl, Nat.zero_le _⟩
  causeIffHalted := by simp [State.launched, State.reset]
  kindIffAborted := by simp [State.launched, State.reset]
  inputWithin := Nat.zero_le _

theorem launch_inv {config : Config} {image input : List Byte} {port : InputPort} {s : State}
    (h : launch config image input port = some s) : s.Inv := by
  obtain ⟨hlen, ⟨-, -, rfl⟩ | ⟨-, rfl⟩⟩ := launch_eq_some h
  · exact (State.launched_inv hlen).raise rfl (by decide)
  · exact State.launched_inv hlen

/-- What a launch leaves, but for the two fields a rejected tail ends the run in (R123). -/
theorem launch_eq_launched {config : Config} {image input : List Byte} {port : InputPort} {s : State}
    (h : launch config image input port = some s) :
    ∃ rs e, s = { State.launched config (.ofWords (imageWords image)) input port with
        runState := rs, errKind := e } ∧
      (config.imageTailPolicy = .truncate ∨ image.length % 4 = 0 → rs = .running ∧ e = .none) := by
  obtain ⟨-, ⟨hm, hp, rfl⟩ | ⟨-, rfl⟩⟩ := launch_eq_some h
  · exact ⟨.aborted, .malformedInput, rfl, by simp [hm, hp]⟩
  · exact ⟨.running, .none, rfl, fun _ => ⟨rfl, rfl⟩⟩

theorem State.launched_wordAt (config : Config) {ws : List Word} (input : List Byte) (port : InputPort)
    (h : ws.length < 2 ^ 32) {k : Nat} {w : Word} (hw : ws[k]? = some w) :
    (State.launched config (.ofWords ws) input port).mem.wordAt 0 (BitVec.ofNat 32 k) = some w := by
  obtain ⟨hk, rfl⟩ := List.getElem?_eq_some_iff.1 hw
  exact Segment.ofWords_wordAt h k hk

end Sys2Proof.Machine
end

section
/-! The statements about the state: what a launch leaves, what an instruction and a step keep. -/

namespace Sys2Proof.Machine

/-- Settles O47: each effect of an instruction keeps the invariants, from the state fetch leaves. -/
theorem stepKeepsInvariants : Obligations.StepKeepsInvariants :=
  fun _ _ h => h.step

/-- Settles O51: the terminal states, the clean halt and an invalid opcode leave memory, and every effect keeps its form. -/
theorem stepKeepsMemoryCanonical : Obligations.StepKeepsMemoryCanonical := by
  intro s t hm h
  obtain ⟨-, rfl⟩ | ⟨-, -, rfl⟩ | ⟨w, n, -, -, -, rfl⟩ | ⟨w, i, -, -, -, hx⟩ := step_cases h
  · exact hm
  · exact hm
  · exact hm
  · exact (exec_effect hx).mem_wf hm

/-- Settles O3: the launched state holds R34's values, and a rejected tail changes two fields of it only. -/
theorem launchLeavesResetValues : Obligations.LaunchLeavesResetValues := by
  intro config image input port s h
  have hlen := (launch_eq_some h).1
  obtain ⟨rs, e, rfl, status⟩ := launch_eq_launched h
  have regs := State.launched_reg config (.ofWords (imageWords image)) input port
  exact ⟨regs, rfl, rfl, rfl, rfl, fun _ _ => State.launched_wordAt config input port hlen,
    rfl, rfl, rfl, rfl, rfl, rfl, status⟩

/-- Settles O20, by the effect of each instruction on `pc`. -/
theorem onlyLoadProgramSetsPc : Obligations.OnlyLoadProgramSetsPc := by
  intro i s t h hr
  have eff := exec_effect h
  refine ⟨fun ht => ?_, fun b c hi ht => ?_, eff.pc_of_not_loadp⟩
  · rw [eff.eq_raise_of_aborted (by simp [hr]) ht, State.raise_pc]
  · subst hi
    exact eff.pc_of_loadp ht

/-- Settles O49: what is launched meets the invariants, and a rejected tail raises a kind on it. -/
theorem launchMeetsInvariants : Obligations.LaunchMeetsInvariants :=
  fun _ _ _ _ _ => launch_inv

/-- Settles O50: a launch meets the invariants, and from them every run goes on and keeps them. -/
theorem noRunFromLaunchStops : Obligations.NoRunFromLaunchStops :=
  fun _ _ _ _ _ k h => (launch_inv h).run k

/-- Settles O52: every effect keeps the registers the instruction does not write, and a CMOV whose condition is 0 has no
effect. -/
theorem registersWrittenByInstruction : Obligations.RegistersWrittenByInstruction := by
  intro i s t h
  have regs := (exec_effect h).sameRegs
  cases i with
  | cmov a b c =>
    refine ⟨regs, fun hc => ?_⟩
    obtain ⟨hne, -⟩ | ⟨-, rfl⟩ := execCmov_next h
    · exact absurd hc hne
    · exact fun _ _ => rfl
  | _ => exact regs

/-- Settles O54, by the effect of each instruction on the slot count. -/
theorem slotsOnlyGrow : Obligations.SlotsOnlyGrow := by
  intro s t h
  obtain ⟨-, rfl⟩ | ⟨-, -, rfl⟩ | ⟨w, n, -, -, -, rfl⟩ | ⟨w, i, -, hw, hd, hx⟩ := step_cases h
  · exact .inl rfl
  · exact .inl rfl
  · exact .inl rfl
  · refine (exec_effect hx).slots.imp_right fun ⟨hs, hp, b, c, hi⟩ => ?_
    exact ⟨hs, hp, w, b, c, hw, hi ▸ hd⟩

/-- Settles O55, by the effect of each instruction on the length of a live index. -/
theorem liveSegmentsKeepTheirLength : Obligations.LiveSegmentsKeepTheirLength := by
  intro s t i m n hs h hi hm hn
  obtain ⟨-, rfl⟩ | ⟨-, -, rfl⟩ | ⟨w, k, -, -, -, rfl⟩ | ⟨w, ins, -, -, -, hx⟩ := step_cases h
  · exact Option.some.inj (hn.symm.trans hm)
  · exact Option.some.inj (hn.symm.trans hm)
  · exact Option.some.inj (hn.symm.trans hm)
  · exact (exec_effect hx).lenAt hs.memory hi hm hn

/-- Settles O48: reset is the launch of the empty image with no input (log 26). -/
theorem resetMeetsInvariants : Obligations.ResetMeetsInvariants := by
  have reset_eq : State.reset = State.launched Config.default (.ofWords []) [] .sequence := rfl
  unfold Obligations.ResetMeetsInvariants
  rw [reset_eq]
  exact State.launched_inv (by decide)

end Sys2Proof.Machine
end

section
/-! SUPPORT. The words of a launched image (R48), the parts of the state each effect leaves alone (R26, R27, R32, R36), and
what one instruction that goes on leaves in memory for the next to find. -/

namespace Sys2Proof.Machine

/-! ### The image (R48, R124) -/

/-- Word `k` of an image is made of its bytes from `4k` on. -/
theorem imageWords_getElem? {image : List Byte} {k : Nat} {b0 b1 b2 b3 : Byte}
    (h0 : image[4 * k]? = some b0) (h1 : image[4 * k + 1]? = some b1)
    (h2 : image[4 * k + 2]? = some b2) (h3 : image[4 * k + 3]? = some b3) :
    (imageWords image)[k]? = some (bigEndian b0 b1 b2 b3) := by
  induction image using imageWords.induct generalizing k with
  | case1 c0 c1 c2 c3 rest ih =>
    cases k with
    | zero => simp_all [imageWords]
    | succ k => exact ih h0 h1 h2 h3
  | case2 image short =>
    have hlen : 4 * k + 3 < image.length := (List.getElem?_eq_some_iff.1 h3).1
    have empty : imageWords image = [] := by
      rw [imageWords]
      exact short
    have := imageWords_length image
    rw [empty, List.length_nil] at this
    omega

theorem bigEndian_eq_ofNat (b0 b1 b2 b3 : Byte) :
    bigEndian b0 b1 b2 b3 =
      BitVec.ofNat 32 (b0.toNat * 2 ^ 24 + b1.toNat * 2 ^ 16 + b2.toNat * 2 ^ 8 + b3.toNat) := by
  rw [← bigEndian_toNat, BitVec.ofNat_toNat, BitVec.setWidth_eq]

/-- A launch goes on when the image is not too long and leaves no tail that is rejected. -/
theorem launch_of_not_rejected {config : Config} {image : List Byte} (input : List Byte) (port : InputPort)
    (hlen : (imageWords image).length < 2 ^ 32)
    (hkept : config.imageTailPolicy = .truncate ∨ image.length % 4 = 0) :
    launch config image input port =
      some (State.launched config (.ofWords (imageWords image)) input port) := by
  have kept : ¬ (image.length % 4 ≠ 0 ∧ config.imageTailPolicy = .reject) := by
    rintro ⟨hm, hp⟩
    simp [hm, hp] at hkept
  simp only [launch]
  rw [if_neg (by omega), if_neg kept]

/-! ### Frames of the effects (R26, R27, R32, R36) -/

@[simp] theorem receive_out (s : State) : (receive s).2.out = s.out := by
  obtain ⟨n, p, e, -⟩ := receive_state s
  rw [e]; rfl

@[simp] theorem receive_input (s : State) : (receive s).2.input = s.input := by
  obtain ⟨n, p, e, -⟩ := receive_state s
  rw [e]; rfl

@[simp] theorem receive_config (s : State) : (receive s).2.config = s.config := by
  obtain ⟨n, p, e, -⟩ := receive_state s
  rw [e]; rfl

theorem Effect.mem_eq {i : Instr} {s t : State} (h : Effect s i t) (hstore : ∀ a b c, i ≠ .sstore a b c)
    (halloc : ∀ b c, i ≠ .alloc b c) (hfree : ∀ c, i ≠ .free c) (hloadp : ∀ b c, i ≠ .loadp b c) :
    t.mem = s.mem := by
  cases h with
  | @store a b c _ _ => exact absurd rfl (hstore a b c)
  | @alloc b c _ _ => exact absurd rfl (halloc b c)
  | @free c _ _ => exact absurd rfl (hfree c)
  | @install b c _ _ => exact absurd rfl (hloadp b c)
  | input _ => exact receive_mem s
  | await _ => exact receive_mem s
  | _ => rfl

theorem Effect.out_eq {i : Instr} {s t : State} (h : Effect s i t) :
    t.out = s.out ∨ ∃ c b, i = .out c ∧ t.out = s.out ++ [b] := by
  cases h with
  | @emit c b => exact .inr ⟨c, b, rfl, rfl⟩
  | input _ => exact .inl (receive_out s)
  | await _ => exact .inl (receive_out s)
  | _ => exact .inl rfl

theorem Effect.sameInput {i : Instr} {s t : State} (h : Effect s i t) (hi : ∀ c, i ≠ .inp c) :
    SameInput s t := by
  cases h with
  | @input c _ => exact absurd rfl (hi c)
  | @await c _ => exact absurd rfl (hi c)
  | _ => exact ⟨rfl, rfl, rfl⟩

theorem Effect.input_config_eq {i : Instr} {s t : State} (h : Effect s i t) :
    t.input = s.input ∧ t.config = s.config := by
  cases h with
  | input _ => exact ⟨receive_input s, receive_config s⟩
  | await _ => exact ⟨receive_input s, receive_config s⟩
  | _ => exact ⟨rfl, rfl⟩

/-! ### Instructions that go on -/

/-- A state that goes on is not one in which a kind was raised. -/
theorem State.raise_not_running {s : State} {e : ErrKind} : (s.raise e).runState ≠ .running := nofun

/-- A FREE that goes on leaves a pool whose top is the freed index, one that names a slot (R45). -/
theorem execFree_running {c : Reg} {s t : State} (h : exec (.free c) s = .next t) (ht : t.runState = .running) :
    t.mem.pool = s.reg c :: s.mem.pool ∧ (s.reg c).toNat < t.mem.slots := by
  obtain ⟨-, rfl⟩ | ⟨g, -, hg, rfl⟩ := execFree_next h
  · exact absurd ht State.raise_not_running
  · exact ⟨rfl, Memory.lt_slots_of_segment (m := s.mem) hg⟩

/-- An ALLOC that goes on takes the top of a pool that has one, and maps the words asked for there, each 0 (R44). -/
theorem execAlloc_pooled {b c : Reg} {s t : State} {i : Word} {rest : List Word}
    (h : exec (.alloc b c) s = .next t) (ht : t.runState = .running) (hp : s.mem.pool = i :: rest)
    (hi : i.toNat < s.mem.slots) :
    t.reg b = i ∧ t.mem.pool = rest ∧ t.mem.segment i = some (.zeros (s.reg c)) := by
  obtain ⟨-, rfl⟩ | ⟨j, rest', -, hp', rfl⟩ | ⟨-, hp', -, rfl⟩ := execAlloc_next h
  · exact absurd ht State.raise_not_running
  · obtain ⟨rfl, rfl⟩ := List.cons.inj (hp.symm.trans hp')
    exact ⟨State.setReg_reg_same _ _ _, rfl,
      (Memory.segment_mapSegment s.mem i i _ hi).trans (if_pos rfl)⟩
  · exact nomatch hp.symm.trans hp'

/-- An SSTORE that goes on leaves the stored word at the offset stored to (R42). -/
theorem execSstore_wordAt {a b c : Reg} {s t : State} (h : exec (.sstore a b c) s = .next t)
    (ht : t.runState = .running) : t.mem.wordAt (s.reg a) (s.reg b) = some (s.reg c) := by
  obtain ⟨-, rfl⟩ | ⟨g, -, -, rfl⟩ | ⟨g, hg, ho, rfl⟩ := execSstore_next h
  · exact absurd ht State.raise_not_running
  · exact absurd ht State.raise_not_running
  · refine (Memory.wordAt_eq_some _ _ _ _).2 ⟨g.withWord (s.reg b) (s.reg c), ?_, ?_⟩
    · exact (Memory.segment_mapSegment _ _ _ _ (Memory.lt_slots_of_segment hg)).trans (if_pos rfl)
    · exact (Segment.wordAt_withWord _ _ _ _).trans (if_pos ⟨rfl, ho⟩)

/-- An SSTORE, whether it goes on or aborts, leaves every other segment (R42). -/
theorem execSstore_segment_ne {a b c : Reg} {s t : State} (h : exec (.sstore a b c) s = .next t) {j : Word}
    (hj : j ≠ s.reg a) : t.mem.segment j = s.mem.segment j := by
  obtain ⟨-, rfl⟩ | ⟨g, -, -, rfl⟩ | ⟨g, hg, -, rfl⟩ := execSstore_next h
  · rfl
  · rfl
  · exact (Memory.segment_mapSegment _ _ _ _ (Memory.lt_slots_of_segment hg)).trans (if_neg hj.symm)

/-- A LOADP from another index that goes on leaves its source, and the same segment at index 0 (R46). -/
theorem execLoadp_segments {b c : Reg} {s t : State} (h : exec (.loadp b c) s = .next t)
    (ht : t.runState = .running) (hb : s.reg b ≠ 0) :
    t.mem.segment 0 = s.mem.segment (s.reg b) ∧ t.mem.segment (s.reg b) = s.mem.segment (s.reg b) := by
  obtain ⟨-, rfl⟩ | ⟨g, -, -, rfl⟩ | ⟨g, h0, -, -, rfl⟩ | ⟨g, -, hg, -, rfl⟩ := execLoadp_next h
  · exact absurd ht State.raise_not_running
  · exact absurd ht State.raise_not_running
  · exact absurd h0 hb
  · have seg := Memory.segment_install hg
    exact ⟨((seg 0).trans (if_pos rfl)).trans hg.symm, (seg (s.reg b)).trans (if_neg hb.symm)⟩

end Sys2Proof.Machine
end

section
/-! The statements about the launch and about memory across instructions. -/

namespace Sys2Proof.Machine

/-- Settles O1: a launch holds the image's words (`launchLeavesResetValues`), and each is the number its four
bytes write. -/
theorem launchLoadsImageBigEndian : Obligations.LaunchLoadsImageBigEndian := by
  intro config image input port s h
  obtain ⟨-, -, -, -, len, words, -⟩ := launchLeavesResetValues config image input port s h
  refine ⟨imageWords_length image ▸ len, fun k b0 b1 b2 b3 h0 h1 h2 h3 => ?_⟩
  rw [← bigEndian_eq_ofNat]
  exact words k _ (imageWords_getElem? h0 h1 h2 h3)

/-- Settles O2: the image of a list of words is whole and gives the list back, so its launch succeeds and
holds it. -/
theorem imageOfWordsIsLoaded : Obligations.ImageOfWordsIsLoaded := by
  intro config ws input port hlen
  have whole : (imageOf ws).length % 4 = 0 := by rw [imageOf_length, Nat.mul_mod_right]
  have launched := launch_of_not_rejected (config := config) input port (by rwa [imageWords_imageOf]) (.inr whole)
  rw [imageWords_imageOf] at launched
  obtain ⟨-, -, -, -, len, words, -⟩ := launchLeavesResetValues _ _ _ _ _ launched
  rw [imageWords_imageOf] at len words
  exact ⟨_, launched, rfl, len, words⟩

/-- Settles O4: a launch that is not rejected runs, and a rejected tail raises the kind on the state that `truncate`
launches. -/
theorem launchTailPolicy : Obligations.LaunchTailPolicy := by
  intro config image input port s h
  obtain ⟨-, -, -, -, -, -, -, -, -, -, -, -, status⟩ := launchLeavesResetValues config image input port s h
  refine ⟨status, fun hp hm => ?_⟩
  obtain ⟨hlen, ⟨-, -, rfl⟩ | ⟨kept, -⟩⟩ := launch_eq_some h
  · exact ⟨rfl, rfl, rfl, _, launch_of_not_rejected input port hlen (.inl rfl),
      fun _ _ => rfl, sameMemory_of_mem_eq rfl, rfl, rfl, rfl, rfl, rfl⟩
  · exact absurd ⟨hm, hp⟩ kept

/-- Settles O43: the freed index is the top of the pool, and ALLOC takes it and maps zeros there. -/
theorem allocReusesLastFreed : Obligations.AllocReusesLastFreed := by
  intro b c d s t u hfree _ ht halloc hu
  obtain ⟨pool, slot⟩ := execFree_running hfree ht
  obtain ⟨index, rest, seg⟩ := execAlloc_pooled halloc hu pool slot
  rw [index]
  refine ⟨rfl, rest, (Memory.lenAt_eq_some _ _ _).2 ⟨_, seg, rfl⟩, fun o ho => ?_⟩
  exact (Memory.wordAt_eq_some _ _ _ _).2 ⟨_, seg, (Segment.wordAt_zeros _ _).trans (if_pos ho)⟩

/-- Settles O45: the word stored at `pc` in segment 0 is the one the step fetches. -/
theorem storeIsSeenByFetch : Obligations.StoreIsSeenByFetch := by
  intro a b c s t i h _ ht ha hpc hd
  have fetched : t.mem.wordAt 0 t.pc = some (s.reg c) := by
    rw [hpc, ← ha]
    exact execSstore_wordAt h ht
  rw [step_of_word ht fetched, runWord, hd]

/-- Settles O46: LOADP leaves one segment at two different indices, and a store changes the segment of its index only. -/
theorem installedCopyIsIndependent : Obligations.InstalledCopyIsIndependent := by
  intro b c a d e s t u hload _ ht hb hstore
  obtain ⟨copy, source⟩ := execLoadp_segments hload ht hb
  refine ⟨fun ha => Memory.wordAt_congr ?_, fun ha => Memory.wordAt_congr ?_⟩
  · exact (execSstore_segment_ne hstore (by rw [ha]; exact hb.symm)).trans copy
  · exact (execSstore_segment_ne hstore (by rwa [ha])).trans source

/-- Settles O53, by what each effect leaves alone. -/
theorem effectsByInstruction : Obligations.EffectsByInstruction := by
  intro i s t h
  have eff := exec_effect h
  refine ⟨fun hs ha hf hl => sameMemory_of_mem_eq (eff.mem_eq hs ha hf hl), fun hout => ?_, fun c _ => ?_,
    eff.sameInput, eff.input_config_eq⟩
  · exact eff.out_eq.resolve_right fun ⟨c, _, hi, _⟩ => hout c hi
  · exact eff.out_eq.imp_right fun ⟨_, b, _, hb⟩ => ⟨b, hb⟩

end Sys2Proof.Machine
end

section
/-! SUPPORT. The codec with its range checks and what an insertion leaves in each field (R64 to R66); the opcode of an
instruction, and decoding by opcode and by the bits of the fields (R69 to R75). -/

namespace Sys2Proof

/-- The opcode of an instruction (R69). -/
def Instr.opcode : Instr → Nat
  | .cmov _ _ _ => 0
  | .sload _ _ _ => 1
  | .sstore _ _ _ => 2
  | .add _ _ _ => 3
  | .mul _ _ _ => 4
  | .div _ _ _ => 5
  | .nand _ _ _ => 6
  | .halt => 7
  | .alloc _ _ => 8
  | .free _ => 9
  | .out _ => 10
  | .inp _ => 11
  | .loadp _ _ => 12
  | .li _ _ => 13

/-- The one ill-formed term is a load immediate too wide for its 25 bits (R71). -/
theorem Instr.wf_eq_false {i : Instr} : i.wf = false ↔ ∃ a imm, i = .li a imm ∧ 2 ^ 25 ≤ imm.toNat := by
  cases i <;> simp [Instr.wf]

end Sys2Proof

namespace Sys2Proof.Machine

/-! ### The codec's checks (R64, R65) -/

theorem getu_eq_none {w : CodecWord} {width lsb : Nat} : getu w width lsb = none ↔ 64 < width + lsb := by
  simp [getu]

theorem getu_eq_some {w : CodecWord} {width lsb v : Nat} :
    getu w width lsb = some v ↔ width + lsb ≤ 64 ∧ codecField w width lsb = v := by
  simp [getu]

theorem newu_eq_none {w : CodecWord} {width lsb v : Nat} :
    newu w width lsb v = none ↔ 64 < width + lsb ∨ 2 ^ width ≤ v := by
  simp [newu, or_iff_not_imp_left]

theorem newu_eq_some {w r : CodecWord} {width lsb v : Nat} :
    newu w width lsb v = some r ↔ width + lsb ≤ 64 ∧ v < 2 ^ width ∧ codecInsert w width lsb v = r := by
  simp [newu]

/-! ### The fields after an insertion (R66) -/

/-- The field inserted holds the value. -/
theorem codecField_codecInsert_same (w : CodecWord) {width lsb v : Nat} (hlen : width + lsb ≤ 64)
    (hv : v < 2 ^ width) : codecField (codecInsert w width lsb v) width lsb = v := by
  refine Nat.eq_of_testBit_eq fun j => ?_
  rw [codecField_testBit]
  by_cases hj : j < width
  · rw [codecInsert_getLsbD _ _ _ _ _ hv (by omega), if_pos (by omega), Nat.add_sub_cancel_left]
    simp [hj]
  · have high : v.testBit j = false :=
      Nat.testBit_lt_two_pow (hv.trans_le (Nat.pow_le_pow_right (by decide) (Nat.not_lt.1 hj)))
    simp [hj, high]

/-- A field that does not overlap the one inserted keeps its value. -/
theorem codecField_codecInsert_disjoint (w : CodecWord) {width lsb v width' lsb' : Nat} (hv : v < 2 ^ width)
    (hlen' : width' + lsb' ≤ 64) (disjoint : lsb' + width' ≤ lsb ∨ lsb + width ≤ lsb') :
    codecField (codecInsert w width lsb v) width' lsb' = codecField w width' lsb' := by
  refine Nat.eq_of_testBit_eq fun j => ?_
  rw [codecField_testBit, codecField_testBit]
  by_cases hj : j < width'
  · rw [codecInsert_getLsbD _ _ _ _ _ hv (by omega), if_neg (by omega)]
  · simp [hj]

/-! ### Decoding by opcode (R69, R73, R74) -/

/-- A word with opcode below 13 is its row of the opcode map on the three fields of Format R. -/
theorem decodeInstr_of_opcode_lt {w : Word} {op : Nat} (h : bits w 31 28 = op) (hop : op < 13) :
    decodeInstr w = .run (opcodeMap[op] (regBits w 6) (regBits w 3) (regBits w 0)) := by
  subst h
  rw [decodeInstr, decode_eq, if_neg (by omega), dif_pos hop]
  rfl

theorem decodeInstr_of_opcode_eq_li {w : Word} (h : bits w 31 28 = 13) :
    decodeInstr w = .run (.li (regBits w 25) (BitVec.ofNat 32 (bits w 24 0))) := by
  rw [decodeInstr, decode_eq, if_pos h]
  rfl

theorem decodeInstr_of_opcode_gt {w : Word} (h : 13 < bits w 31 28) :
    decodeInstr w = .invalidOpcode (bits w 31 28) := by
  rw [decodeInstr, decode_eq, if_neg (by omega), dif_neg (by omega)]
  rfl

/-- Row `op` of the opcode map holds a well-formed instruction with opcode `op`. -/
theorem opcodeMap_opcode_wf {op : Nat} (hop : op < 13) (a b c : Reg) :
    (opcodeMap[op] a b c).opcode = op ∧ (opcodeMap[op] a b c).wf = true := by
  interval_cases op <;> exact ⟨rfl, rfl⟩

/-- A decoded instruction has the opcode of the word, and is well-formed. -/
theorem opcode_wf_of_decodeInstr {w : Word} {i : Instr} (h : decodeInstr w = .run i) :
    i.opcode = bits w 31 28 ∧ i.wf = true := by
  obtain hop | hop | hop := Nat.lt_trichotomy (bits w 31 28) 13
  · rw [decodeInstr_of_opcode_lt rfl hop] at h
    exact Dispatched.run.inj h ▸ opcodeMap_opcode_wf hop _ _ _
  · rw [decodeInstr_of_opcode_eq_li hop] at h
    have himm : bits w 24 0 < 2 ^ 25 := Nat.mod_lt _ (by decide)
    have hfit : (BitVec.ofNat 32 (bits w 24 0)).toNat < 2 ^ 25 := by
      rw [BitVec.toNat_ofNat]
      exact (Nat.mod_le _ _).trans_lt himm
    exact Dispatched.run.inj h ▸ ⟨hop.symm, decide_eq_true hfit⟩
  · rw [decodeInstr_of_opcode_gt hop] at h
    exact nomatch h

/-! ### Words that agree on their low bits (R75) -/

/-- A register field within the low bits on which two words agree is the same in both. -/
theorem regBits_eq_of_low_bits {v w : Word} {hi lo : Nat} (h : bits v hi 0 = bits w hi 0) (hlo : lo + 2 ≤ hi) :
    regBits v lo = regBits w lo := by
  have within (u : Word) : bits u (lo + 2) lo = bits u hi 0 / 2 ^ lo % 2 ^ 3 := by
    have hpow : 2 ^ (hi + 1) = 2 ^ lo * 2 ^ (hi + 1 - lo) := by rw [← Nat.pow_add, Nat.add_sub_cancel' (by omega)]
    have hdvd : 2 ^ 3 ∣ 2 ^ (hi + 1 - lo) := Nat.pow_dvd_pow 2 (by omega)
    rw [bits, bits, Nat.pow_zero, Nat.div_one, Nat.sub_zero, hpow, Nat.mod_mul_right_div_self,
      Nat.mod_mod_of_dvd _ hdvd, show lo + 2 + 1 - lo = 3 by omega]
  rw [regBits, regBits, within, within, h]

/-- Two words in one row of the opcode map are one instruction when the row gives the same from their fields. -/
theorem decodeInstr_eq_of_row {v w : Word} {op : Nat} (hop : op < 13) (hv : bits v 31 28 = op)
    (hw : bits w 31 28 = op)
    (row : opcodeMap[op] (regBits v 6) (regBits v 3) (regBits v 0) =
      opcodeMap[op] (regBits w 6) (regBits w 3) (regBits w 0)) : decodeInstr v = decodeInstr w := by
  rw [decodeInstr_of_opcode_lt hv hop, decodeInstr_of_opcode_lt hw hop, row]

end Sys2Proof.Machine
end

section
/-! The statements about the codec, the decoder and the encoder. -/

namespace Sys2Proof.Machine

open Sys2Proof.Laws

/-- Settles O12: each constructor round-trips, by its row of the opcode map or as a load immediate. -/
theorem decodeOfEncode : Obligations.DecodeOfEncode := by
  intro i
  cases i with
  | cmov a b c => exact EncodeDecode.cmov a b c
  | sload a b c => exact EncodeDecode.sload a b c
  | sstore a b c => exact EncodeDecode.sstore a b c
  | add a b c => exact EncodeDecode.add a b c
  | mul a b c => exact EncodeDecode.mul a b c
  | div a b c => exact EncodeDecode.div a b c
  | nand a b c => exact EncodeDecode.nand a b c
  | halt => exact EncodeDecode.halt
  | alloc b c => exact EncodeDecode.alloc b c
  | free c => exact EncodeDecode.free c
  | out c => exact EncodeDecode.out c
  | inp c => exact EncodeDecode.inp c
  | loadp b c => exact EncodeDecode.loadp b c
  | li a imm => exact EncodeDecode.li a imm

/-- Settles O7, by the codec's check and its field bit by bit. -/
theorem codecExtracts : Obligations.CodecExtracts := by
  intro w width lsb
  refine ⟨getu_eq_none, fun v h => ?_⟩
  obtain ⟨-, rfl⟩ := getu_eq_some.1 h
  exact ⟨codecField_lt w width lsb, codecField_testBit w width lsb⟩

/-- Settles O8, by the codec's checks and the word it builds bit by bit. -/
theorem codecInserts : Obligations.CodecInserts := by
  intro w width lsb v
  refine ⟨newu_eq_none, fun r h j hj => ?_⟩
  obtain ⟨-, hv, rfl⟩ := newu_eq_some.1 h
  exact codecInsert_getLsbD w width lsb v j hv hj

/-- Settles O9: a field out of range is so in both words, and any other is compared bit by bit. -/
theorem codecRoundTrip : Obligations.CodecRoundTrip := by
  intro w width lsb v hlen hv
  refine ⟨_, newu_eq_some.2 ⟨hlen, hv, rfl⟩, getu_eq_some.2 ⟨hlen, codecField_codecInsert_same w hlen hv⟩,
    fun width' lsb' disjoint => ?_⟩
  by_cases hlen' : width' + lsb' ≤ 64
  · rw [getu_eq_some.2 ⟨hlen', codecField_codecInsert_disjoint w hv hlen' disjoint⟩]
    exact (getu_eq_some.2 ⟨hlen', rfl⟩).symm
  · have out := Nat.not_le.1 hlen'
    rw [getu_eq_none.2 out, getu_eq_none.2 out]

/-- Settles O10, by the three ranges of the four opcode bits. -/
theorem decodeReadsFormatFields : Obligations.DecodeReadsFormatFields := by
  intro w
  rw [decode_eq]
  refine ⟨fun h => ?_, fun h => if_pos h, fun h => ⟨?_, ?_⟩⟩
  · rw [if_neg (by omega), dif_pos h]
  · rw [if_neg (by omega), dif_neg (by omega)]
  · have := bits_opcode_lt w
    omega

/-- Settles O11: equal low bits give equal register fields, and a row of the opcode map that ignores a field needs
no agreement on it. -/
theorem dontCareBitsHaveNoEffect : Obligations.DontCareBitsHaveNoEffect := by
  intro v w hop
  refine ⟨fun hne h => ?_, fun h7 => ?_, fun hw h => ?_, fun hw h => ?_⟩
  · obtain hlt | hgt := Nat.lt_or_gt_of_ne hne
    · refine decodeInstr_eq_of_row hlt hop rfl ?_
      rw [regBits_eq_of_low_bits (lo := 6) h (by decide), regBits_eq_of_low_bits (lo := 3) h (by decide),
        regBits_eq_of_low_bits (lo := 0) h (by decide)]
    · rw [decodeInstr_of_opcode_gt hgt, decodeInstr_of_opcode_gt (hop ▸ hgt), hop]
  · exact decodeInstr_eq_of_row (by decide) (hop.trans h7) h7 rfl
  · have hb : regBits v 3 = regBits w 3 := regBits_eq_of_low_bits h (by decide)
    have hc : regBits v 0 = regBits w 0 := regBits_eq_of_low_bits h (by decide)
    obtain h8 | h12 := hw
    · exact decodeInstr_eq_of_row (by decide) (hop.trans h8) h8 (congrArg₂ Instr.alloc hb hc)
    · exact decodeInstr_eq_of_row (by decide) (hop.trans h12) h12 (congrArg₂ Instr.loadp hb hc)
  · have hc : regBits v 0 = regBits w 0 := regBits_eq_of_low_bits h (by decide)
    obtain h9 | h10 | h11 := hw
    · exact decodeInstr_eq_of_row (by decide) (hop.trans h9) h9 (congrArg Instr.free hc)
    · exact decodeInstr_eq_of_row (by decide) (hop.trans h10) h10 (congrArg Instr.out hc)
    · exact decodeInstr_eq_of_row (by decide) (hop.trans h11) h11 (congrArg Instr.inp hc)

/-- Settles O13: a well-formed term has a word (`decodeOfEncode`), and the one ill-formed shape has none. -/
theorem encodeRefusesExactlyIllFormed : Obligations.EncodeRefusesExactlyIllFormed := by
  intro i
  refine ⟨fun h => Bool.eq_false_iff.2 fun hwf => ?_, fun h => ?_⟩
  · obtain ⟨w, hw, -⟩ := decodeOfEncode i hwf
    exact nomatch h.symm.trans hw
  · obtain ⟨a, imm, rfl, wide⟩ := Instr.wf_eq_false.1 h
    exact encodeI_eq_none a wide

/-- Settles O14: a decoded instruction is well-formed, so `decodeOfEncode` gives its word; both words decode to it, so
both hold its opcode. -/
theorem decodedInstrHasCanonicalWord : Obligations.DecodedInstrHasCanonicalWord := by
  intro w i hw
  obtain ⟨opw, hwf⟩ := opcode_wf_of_decodeInstr hw
  obtain ⟨v, henc, hv⟩ := decodeOfEncode i hwf
  obtain ⟨opv, -⟩ := opcode_wf_of_decodeInstr hv
  exact ⟨hwf, v, henc, opv.symm.trans opw, hv⟩

/-- Settles O17: the word is fetched, its opcode is above 13, and raising a kind changes nothing else. -/
theorem invalidOpcodeAborts : Obligations.InvalidOpcodeAborts := by
  intro s w hr hw hop
  refine ⟨_, ?_, aborts_raise _ _⟩
  rw [step_of_word hr hw, runWord, decodeInstr_of_opcode_gt (by omega)]

/-- Settles O15, by running the decoder on each word. -/
theorem writtenWordsDecode : Obligations.WrittenWordsDecode := by
  unfold Obligations.WrittenWordsDecode
  decide

end Sys2Proof.Machine
end

section
/-! SUPPORT. Dispatch: the step of a word that decodes, the word placed where the next step fetches (log 27), how a run
comes to halt (R85), the input wait (R90), OUT of a wide value (R103), and the independence of the input (R82). -/

namespace Sys2Proof.Machine

/-! ### The step of a decoded word (R86) -/

theorem step_of_instr {s : State} {w : Word} {i : Instr} (hr : s.runState = .running)
    (hw : s.mem.wordAt 0 s.pc = some w) (hd : decodeInstr w = .run i) :
    step s = exec i (s.setPc (s.pc + 1)) := by
  rw [step_of_word hr hw, runWord, hd]

/-! ### The placed word (log 27) -/

/-- A placed word is read back, but for the one offset that lies in no segment. -/
theorem Segment.wordAt_placeWord (g : Segment) {o : Word} (ho : o ≠ allOnes) (w : Word) :
    (placeWord g o w).wordAt o = some w := by
  by_cases within : o < g.len
  · rw [placeWord, if_pos within, Segment.wordAt_withWord, if_pos ⟨rfl, within⟩]
  · have lengthened : o < o + 1 := by
      unfold allOnes at ho
      bv_omega
    rw [placeWord, if_neg within, Segment.wordAt_withWord, if_pos ⟨rfl, lengthened⟩]

theorem State.withFetchWord_pc_ne (s : State) (nbits w : Nat) : (s.withFetchWord nbits w).pc ≠ allOnes := by
  change (if s.pc = allOnes then 0 else s.pc) ≠ allOnes
  split
  · decide
  · assumption

/-- The word `withFetchWord` places stands in segment 0, at the offset `pc` holds. -/
theorem State.withFetchWord_wordAt (s : State) (nbits w : Nat) :
    (s.withFetchWord nbits w).mem.wordAt 0 (s.withFetchWord nbits w).pc =
      some (BitVec.ofNat 32 (w % 2 ^ nbits)) := by
  have placed : (s.withFetchWord nbits w).mem.segment 0 =
      some (placeWord ((s.mem.segment 0).getD (.zeros 0)) (s.withFetchWord nbits w).pc
        (BitVec.ofNat 32 (w % 2 ^ nbits))) :=
    (if_pos (Nat.le_max_right _ _)).trans ((sparseFind_insert _ _ _ _).trans (if_pos rfl))
  exact (Memory.wordAt_eq_some _ _ _ _).2
    ⟨_, placed, Segment.wordAt_placeWord _ (s.withFetchWord_pc_ne nbits w) _⟩

/-! ### Halting (R85) -/

/-- Only HALT halts. -/
theorem Effect.eq_halt_of_halted {i : Instr} {s t : State} (h : Effect s i t) (hs : s.runState ≠ .halted)
    (ht : t.runState = .halted) : i = .halt := by
  cases h with
  | abort _ => exact nomatch ht
  | halt => rfl
  | input _ => exact absurd ((receive_runState s).symm.trans ht) hs
  | await _ => exact absurd ((receive_runState s).symm.trans ht) hs
  | _ => exact absurd ht hs

/-! ### The input wait (R90, log 7) -/

/-- The port is not ready where an interactive host has no answer left or answers so, and receiving then moves the
answers alone. -/
theorem receive_notReady {s : State} (h : s.inputNotReady) :
    (receive s).2 = s.setPort (receive s).2.port ∧
    ((s.port = .interactive [] ∧ (receive s).2.port = .interactive []) ∨
      ∃ rest, s.port = .interactive (.notReady :: rest) ∧ (receive s).2.port = .interactive rest) := by
  unfold State.inputNotReady at h
  obtain ⟨b, -, -, e⟩ | ⟨-, -, e⟩ | ⟨hp, e⟩ | ⟨a, rest, hp, e⟩ := receive_cases s <;> rw [e] at h ⊢
  · exact nomatch h
  · exact nomatch h
  · exact ⟨rfl, .inl ⟨hp, hp⟩⟩
  · cases h
    exact ⟨rfl, .inr ⟨rest, hp, rfl⟩⟩

/-- The wait takes back what fetch added to `pc`. -/
theorem State.awaitInput_setPc_succ (s : State) : (s.setPc (s.pc + 1)).awaitInput = s := by
  simp [State.awaitInput, State.setPc]

/-- IN, from the state fetch leaves, undoes the fetch while the port is not ready. -/
theorem execInp_setPc_of_notReady (c : Reg) {s : State} (h : s.inputNotReady) :
    execInp c (s.setPc (s.pc + 1)) = .next (receive s).2 := by
  have fetched : receive (s.setPc (s.pc + 1)) = (.notReady, (receive s).2.setPc ((receive s).2.pc + 1)) := by
    rw [receive_setPc, receive_pc, h]
  rw [execInp_notReady fetched, State.awaitInput_setPc_succ]

/-! ### OUT of a wide value (R103, D4) -/

theorem execOut_of_abort {c : Reg} {s : State} (hc : 256 ≤ (s.reg c).toNat)
    (hp : s.config.outWidePolicy = .abort) : execOut c s = .next (s.raise .outputRange) := by
  simp [execOut, Nat.not_lt.2 hc, hp]

theorem execOut_of_ignore {c : Reg} {s : State} (hc : 256 ≤ (s.reg c).toNat)
    (hp : s.config.outWidePolicy = .ignore) : execOut c s = .next s := by
  simp [execOut, Nat.not_lt.2 hc, hp]

/-! ### Another input (R82) -/

/-- The state with another `INPUT`, read position and port. -/
def State.withInput (s : State) (input : List Byte) (inpos : Nat) (port : InputPort) : State :=
  { s with input := input, inpos := inpos, port := port }

section
variable {s t : State} (input : List Byte) (inpos : Nat) (port : InputPort)

/-- Only the uninterpreted predicate can read the input position (log 4). -/
theorem allocAdmits_withInput_inpos (hs : s.config.allocAdmit ≠ .uninterpreted) (n : Word) :
    allocAdmits (s.withInput input inpos port) n = allocAdmits s n := by
  have config : (s.withInput input inpos port).config = s.config := rfl
  rw [allocAdmits, allocAdmits, config]
  cases h : s.config.allocAdmit with
  | always => rfl
  | budget words => rfl
  | uninterpreted => exact absurd h hs

/-- A request that gets one answer under either input leaves states that differ in the input alone. -/
theorem orRaise_withInput {α : Type} {answer answer' : Except ErrKind α} {k k' : α → State}
    (h : orRaise s answer k = .next t) (ha : answer' = answer)
    (hk : ∀ v, k' v = (k v).withInput input inpos port) :
    orRaise (s.withInput input inpos port) answer' k' = .next (t.withInput input inpos port) := by
  subst ha
  obtain ⟨e, rfl, rfl⟩ | ⟨v, rfl, rfl⟩ := (orRaise_next s answer' k t).1 h
  · rfl
  · exact congrArg Host.Outcome.next (hk v)

/-- An instruction other than IN does the same under another input, ALLOC where the request is admitted alike. -/
theorem exec_withInput {i : Instr} (hi : ∀ c, i ≠ .inp c)
    (admitted : ∀ b c, i = .alloc b c →
      allocAdmits (s.withInput input inpos port) (s.reg c) = allocAdmits s (s.reg c))
    (h : exec i s = .next t) :
    exec i (s.withInput input inpos port) = .next (t.withInput input inpos port) := by
  cases i with
  | cmov a b c =>
    obtain ⟨hc, rfl⟩ | ⟨hc, rfl⟩ := execCmov_next h
    · exact congrArg Host.Outcome.next (if_pos hc)
    · exact congrArg Host.Outcome.next (if_neg (not_not.2 hc))
  | alloc b c =>
    exact orRaise_withInput input inpos port h (congrArg (memAlloc s.mem · (s.reg c)) (admitted b c rfl)) fun _ => rfl
  | out c =>
    obtain ⟨hc, rfl⟩ | ⟨hc, hp, rfl⟩ | ⟨hc, hp, rfl⟩ := execOut_next h
    · exact if_pos hc
    · exact execOut_of_abort hc hp
    · exact execOut_of_ignore hc hp
  | inp c => exact absurd rfl (hi c)
  | sload _ _ _ | sstore _ _ _ | div _ _ _ | free _ | loadp _ _ =>
    exact orRaise_withInput input inpos port h rfl fun _ => rfl
  | add _ _ _ | mul _ _ _ | nand _ _ _ | halt | li _ _ => exact Host.Outcome.next.inj h ▸ rfl

end

end Sys2Proof.Machine
end

section
/-! The statements about dispatch. -/

namespace Sys2Proof.Machine

/-- Settles O16: the word at `pc` is fetched, and it lies below a length, so `pc` does not wrap. -/
theorem stepRunsDecodedInstruction : Obligations.StepRunsDecodedInstruction :=
  fun _ _ _ hr hw hd => ⟨step_of_instr hr hw hd, pc_succ_toNat hw⟩

/-- Settles O18, by the step at the end of the stream. -/
theorem streamExhaustionHalts : Obligations.StreamExhaustionHalts :=
  fun s hr hl => ⟨_, step_of_exhausted hr hl, halts_halt s _⟩

/-- Settles O19, by induction on the number of steps. -/
theorem terminalStatesAbsorb : Obligations.TerminalStatesAbsorb := by
  intro s k h
  have stays : core.step s = .next s := step_of_terminal (by rcases h with h | h <;> simp [h])
  induction k with
  | zero => rfl
  | succ k ih =>
    simp only [Host.Core.run, stays]
    exact ih

/-- Settles O23: the clean halt and HALT halt, and no other effect does. -/
theorem haltsOnlyOnHaltOrExhaustion : Obligations.HaltsOnlyOnHaltOrExhaustion := by
  intro s t hr h
  refine ⟨fun ht => ?_, ?_⟩
  · obtain ⟨hn, -⟩ | ⟨-, hl, -⟩ | ⟨w, n, -, -, -, rfl⟩ | ⟨w, i, -, hw, hd, hx⟩ := step_cases h
    · exact absurd hr hn
    · exact .inl hl
    · exact nomatch ht
    · have isHalt : i = .halt := (exec_effect hx).eq_halt_of_halted (by simp [hr]) ht
      exact .inr ⟨w, hw, isHalt ▸ hd⟩
  · rintro (hl | ⟨w, hw, hd⟩)
    · rw [step_of_exhausted hr hl] at h
      exact Host.Outcome.next.inj h ▸ rfl
    · rw [step_of_instr hr hw hd] at h
      exact Host.Outcome.next.inj h ▸ rfl

/-- Settles O24: the placed word stands at `pc` in a running core, so it is fetched. -/
theorem placedWordIsRun : Obligations.PlacedWordIsRun := by
  intro s w i hd
  have placed := s.withFetchWord_wordAt 32 w.toNat
  rw [Nat.mod_eq_of_lt w.isLt, BitVec.ofNat_toNat, BitVec.setWidth_eq] at placed
  exact step_of_instr rfl placed hd

/-- Settles O40: IN undoes the fetch, and receiving takes at most the one `notReady`. -/
theorem inputWaitKeepsState : Obligations.InputWaitKeepsState := by
  intro s w c hr hw hd hn
  obtain ⟨answersAlone, answers⟩ := receive_notReady hn
  refine ⟨?_, answers⟩
  rw [step_of_instr hr hw hd]
  exact (execInp_setPc_of_notReady c hn).trans (congrArg Host.Outcome.next answersAlone)

/-- Settles O56: an instruction other than IN keeps the input position and does the same under another input, with ALLOC
admitted alike unless the predicate may read the position. -/
theorem onlyInReadsTheInput : Obligations.OnlyInReadsTheInput := by
  intro i s t input inpos port hi h
  refine ⟨?_, fun unread => exec_withInput input inpos port hi (fun b c hbc => ?_) h⟩
  · obtain ⟨-, kept, -⟩ := (exec_effect h).sameInput hi
    have same : exec i (s.withInput input s.inpos port) = .next (t.withInput input s.inpos port) :=
      exec_withInput input s.inpos port hi (fun _ _ _ => allocAdmits_withInput s input port _) h
    exact same.trans (congrArg (fun n => Host.Outcome.next (t.withInput input n port)) kept.symm)
  · exact allocAdmits_withInput_inpos input inpos port (unread.resolve_right fun hn => hn b c hbc) _

end Sys2Proof.Machine
end

section
/-! SUPPORT. The requests of segment access by what stands at the address (R41, R42), what a store leaves of memory, and
the two ends of an instruction whose request may fail. -/

namespace Sys2Proof.Machine

/-! ### Requests that answer, and requests that fail (R107, R110) -/

theorem orRaise_of_ok {α : Type} {s : State} {answer : Except ErrKind α} {k : α → State} {v : α}
    (h : answer = .ok v) : orRaise s answer k = .next (k v) := by rw [h]; rfl

/-- An instruction whose request fails aborts with the kind of the failure. -/
theorem orRaise_aborts {α : Type} {s : State} {answer : Except ErrKind α} {k : α → State} {e : ErrKind}
    (h : answer = .error e) : ∃ t, orRaise s answer k = .next t ∧ Aborts e s t :=
  ⟨s.raise e, by rw [h]; rfl, aborts_raise s e⟩

/-! ### Reads by what stands at the address (R41, R43) -/

section
variable {m : Memory} {i o n v : Word}

/-- Every offset below the length of a live segment holds a word. -/
theorem Memory.exists_wordAt (hn : m.lenAt i = some n) (ho : o < n) : ∃ v, m.wordAt i o = some v := by
  obtain ⟨g, hg, rfl⟩ := (Memory.lenAt_eq_some m i n).1 hn
  obtain ⟨v, hv⟩ := Option.isSome_iff_exists.1 ((Segment.wordAt_isSome g o).trans (decide_eq_true ho))
  exact ⟨v, (Memory.wordAt_eq_some m i o v).2 ⟨g, hg, hv⟩⟩

theorem memRead_of_wordAt (hv : m.wordAt i o = some v) : memRead m i o = .ok v := by
  obtain ⟨g, hg, hw⟩ := (Memory.wordAt_eq_some m i o v).1 hv
  simp [memRead, hg, hw]

theorem memRead_of_not_live (hn : m.lenAt i = none) : memRead m i o = .error .invalidSegment := by
  simp [memRead, (Memory.lenAt_eq_none m i).1 hn]

theorem memRead_of_len_le (hn : m.lenAt i = some n) (ho : n ≤ o) : memRead m i o = .error .outOfBounds := by
  obtain ⟨g, hg, rfl⟩ := (Memory.lenAt_eq_some m i n).1 hn
  simp [memRead, hg, (Segment.wordAt_eq_none g o).2 ho]

/-! ### Writes by what stands at the address (R42, R43) -/

theorem memWrite_of_lt_len (hn : m.lenAt i = some n) (ho : o < n) : ∃ m', memWrite m i o v = .ok m' := by
  obtain ⟨g, hg, rfl⟩ := (Memory.lenAt_eq_some m i n).1 hn
  exact ⟨m.mapSegment i.toNat (g.withWord o v), by simp [memWrite, hg, ho]⟩

theorem memWrite_of_not_live (hn : m.lenAt i = none) : memWrite m i o v = .error .invalidSegment := by
  simp [memWrite, (Memory.lenAt_eq_none m i).1 hn]

theorem memWrite_of_len_le (hn : m.lenAt i = some n) (ho : n ≤ o) : memWrite m i o v = .error .outOfBounds := by
  obtain ⟨g, hg, rfl⟩ := (Memory.lenAt_eq_some m i n).1 hn
  simp [memWrite, hg, BitVec.not_lt.2 ho]

/-! ### What a store leaves of memory (R42) -/

variable {m' : Memory}

theorem memWrite_pool (h : memWrite m i o v = .ok m') : m'.pool = m.pool := by
  obtain ⟨-, e⟩ | ⟨_, -, -, e⟩ | ⟨_, -, -, e⟩ := memWrite_cases m i o v <;> cases e.symm.trans h
  rfl

/-- Read after write, at every address of memory. -/
theorem memWrite_wordAt (h : memWrite m i o v = .ok m') (j p : Word) :
    m'.wordAt j p = if j = i ∧ p = o then some v else m.wordAt j p := by
  obtain ⟨-, e⟩ | ⟨_, -, -, e⟩ | ⟨g, hg, ho, e⟩ := memWrite_cases m i o v <;> cases e.symm.trans h
  rw [Memory.wordAt, Memory.segment_mapSegment m i j _ (Memory.lt_slots_of_segment hg)]
  by_cases hj : j = i
  · subst hj
    simp [Segment.wordAt_withWord, ho, Memory.wordAt, hg, eq_comm]
  · simp [Ne.symm hj, hj, Memory.wordAt]

/-- A store changes memory at its address alone. -/
theorem sameMemoryBut_of_memWrite {s : State} (h : memWrite s.mem i o v = .ok m') :
    SameMemoryBut (fun j p => j = i ∧ p = o) s (s.setMem m') :=
  ⟨memWrite_slots h, memWrite_pool h, memWrite_lenAt h, fun j p hjp => (memWrite_wordAt h j p).trans (if_neg hjp)⟩

end

end Sys2Proof.Machine
end

section
/-! The statements about conditional move and segment access. -/

namespace Sys2Proof.Machine

/-- Settles O25, by the two cases of `x[C]`: `x[A]` alone is written, or nothing is. -/
theorem cmovResult : Obligations.CmovResult := by
  refine ⟨formatR_of_row (by decide) rfl fun _ _ _ => rfl, fun a b c s => ?_⟩
  obtain ⟨t, ht⟩ := exec_total (.cmov a b c) s
  refine ⟨t, ht, ?_⟩
  obtain ⟨hc, rfl⟩ | ⟨hc, rfl⟩ := execCmov_next ht
  · exact ⟨fun _ => ⟨State.setReg_reg_same _ _ _, onlyRegs_setReg _ _ _⟩, fun h => absurd h hc⟩
  · exact ⟨fun h => absurd hc h, fun _ => onlyRegs_refl _ _⟩

/-- Settles O26, by what `MemRead` answers to each address: the word there, or the kind of the check that fails. -/
theorem sloadResult : Obligations.SloadResult := by
  refine ⟨formatR_of_row (by decide) rfl fun _ _ _ => rfl, fun a b c s => ⟨fun v hv => ?_, ?_, ?_, ?_⟩⟩
  · exact ⟨_, orRaise_of_ok (memRead_of_wordAt hv), State.setReg_reg_same _ _ _, onlyRegs_setReg _ _ _⟩
  · exact fun n hn ho => Memory.exists_wordAt hn ho
  · exact fun hn => orRaise_aborts (memRead_of_not_live hn)
  · exact fun n hn ho => orRaise_aborts (memRead_of_len_le hn ho)

/-- Settles O27, by what `MemWrite` answers to each address: a memory changed there alone, or the kind of the check
that fails. -/
theorem sstoreResult : Obligations.SstoreResult := by
  refine ⟨formatR_of_row (by decide) rfl fun _ _ _ => rfl, fun a b c s => ⟨fun n hn ho => ?_, ?_, ?_⟩⟩
  · obtain ⟨m, hm⟩ := memWrite_of_lt_len (v := s.reg c) hn ho
    exact ⟨s.setMem m, orRaise_of_ok hm, (memWrite_wordAt hm _ _).trans (if_pos ⟨rfl, rfl⟩),
      sameMemoryBut_of_memWrite hm, fun _ _ => rfl, ⟨rfl, rfl, rfl⟩, rfl, ⟨rfl, rfl, rfl⟩, rfl, rfl⟩
  · exact fun hn => orRaise_aborts (memWrite_of_not_live hn)
  · exact fun n hn ho => orRaise_aborts (memWrite_of_len_le hn ho)

end Sys2Proof.Machine
end

section
/-! SUPPORT. What a division request answers (R98). -/

namespace Sys2Proof.Machine

variable {x y : Word}

theorem quotient_of_ne_zero (hy : y ≠ 0) : quotient x y = .ok (x / y) := by
  rw [quotient, if_neg hy, BitVec.udiv_def]

theorem quotient_of_eq_zero (hy : y = 0) : quotient x y = .error .divideByZero := if_pos hy

end Sys2Proof.Machine
end

section
/-! The statements about arithmetic and logic. -/

namespace Sys2Proof.Machine

/-- Settles O30, by what the division request answers: the floor of the quotient, or `DivideByZero`. -/
theorem divResult : Obligations.DivResult := by
  refine ⟨formatR_of_row (by decide) rfl fun _ _ _ => rfl, fun a b c s => ⟨fun hc => ?_, fun hc => ?_⟩⟩
  · refine ⟨_, orRaise_of_ok (quotient_of_ne_zero hc), ?_, onlyRegs_setReg _ _ _⟩
    rw [State.setReg_reg_same, BitVec.toNat_udiv]
  · exact orRaise_aborts (quotient_of_eq_zero hc)

/-- Settles O31: below the width, a bit of the complement is the negation of the bit. -/
theorem nandResult : Obligations.NandResult := by
  refine ⟨formatR_of_row (by decide) rfl fun _ _ _ => rfl, fun a b c s => ?_⟩
  refine ⟨_, rfl, fun j hj => ?_, onlyRegs_setReg _ _ _⟩
  rw [State.setReg_reg_same, BitVec.getLsbD_not, BitVec.getLsbD_and, decide_eq_true hj, Bool.true_and]

/-- Settles O28: a 32-bit word holds the sum modulo `2^32`. -/
theorem addResult : Obligations.AddResult := by
  refine ⟨formatR_of_row (by decide) rfl fun _ _ _ => rfl, fun a b c s => ?_⟩
  refine ⟨_, rfl, ?_, onlyRegs_setReg _ _ _⟩
  rw [State.setReg_reg_same, BitVec.toNat_ofNat]

/-- Settles O29: a 32-bit word holds the product modulo `2^32`. -/
theorem mulResult : Obligations.MulResult := by
  refine ⟨formatR_of_row (by decide) rfl fun _ _ _ => rfl, fun a b c s => ?_⟩
  refine ⟨_, rfl, ?_, onlyRegs_setReg _ _ _⟩
  rw [State.setReg_reg_same, BitVec.toNat_ofNat]

end Sys2Proof.Machine
end

section
/-! SUPPORT. The requests of segment management by what they ask for (R44 to R46): when each answers, when it
fails, and what an answer leaves of memory, segment by segment. Then what the input port answers, by its model (R119). -/

namespace Sys2Proof.Machine

section
variable {m : Memory} {i n o : Word}

theorem Memory.live_eq_false : m.live i = false ↔ m.lenAt i = none := by
  simp [Memory.live, Memory.lenAt]

/-- An index that names no slot is not live (R40). -/
theorem Memory.segment_of_slots_le (hi : m.slots ≤ i.toNat) : m.segment i = none := if_neg (Nat.not_lt.2 hi)

/-! ### Alloc (R44) -/

theorem memAlloc_of_exhausted {admitted : Bool} (h : admitted = false ∨ (m.pool = [] ∧ m.slots = 2 ^ 32)) :
    memAlloc m admitted n = .error .resourceExhausted := by
  obtain ⟨-, e⟩ | ⟨i, rest, ha, hp, -⟩ | ⟨ha, -, hs, -⟩ := memAlloc_cases m admitted n
  · exact e
  · obtain hx | ⟨hx, -⟩ := h
    · exact nomatch ha.symm.trans hx
    · exact nomatch hp.symm.trans hx
  · obtain hx | ⟨-, hx⟩ := h
    · exact nomatch ha.symm.trans hx
    · exact absurd hx hs.ne

/-- An admitted request is answered unless no new index fits a register (D9). -/
theorem Memory.Sound.memAlloc_of_fits (hm : m.Sound) (hfit : ¬ (m.pool = [] ∧ m.slots = 2 ^ 32)) :
    ∃ r, Machine.memAlloc m true n = .ok r := by
  obtain ⟨ha | ⟨hp, hs⟩, -⟩ | ⟨i, rest, -, -, e⟩ | ⟨-, -, -, e⟩ := memAlloc_cases m true n
  · exact nomatch ha
  · exact absurd ⟨hp, hm.slotsBounded.antisymm hs⟩ hfit
  · exact ⟨_, e⟩
  · exact ⟨_, e⟩

section
variable {admitted : Bool} {r : Word × Memory}

/-- Where the pool has a top, that is the index handed out, and no slot is added. -/
theorem memAlloc_of_pool_cons {rest : List Word} (h : memAlloc m admitted n = .ok r) (hp : m.pool = i :: rest) :
    r.1 = i ∧ r.2.pool = rest ∧ r.2.slots = m.slots := by
  obtain ⟨-, e⟩ | ⟨j, rest', -, hp', e⟩ | ⟨-, hp', -, -⟩ := memAlloc_cases m admitted n
  · exact nomatch e.symm.trans h
  · cases e.symm.trans h
    cases hp.symm.trans hp'
    exact ⟨rfl, rfl, rfl⟩
  · exact nomatch hp.symm.trans hp'

/-- Where the pool is empty, the index handed out is that of a new slot. -/
theorem memAlloc_of_pool_nil (h : memAlloc m admitted n = .ok r) (hp : m.pool = []) :
    r.1.toNat = m.slots ∧ r.2.pool = [] ∧ r.2.slots = m.slots + 1 := by
  obtain ⟨-, e⟩ | ⟨j, rest, -, hp', -⟩ | ⟨-, -, hs, e⟩ := memAlloc_cases m admitted n
  · exact nomatch e.symm.trans h
  · exact nomatch hp.symm.trans hp'
  · cases e.symm.trans h
    exact ⟨word_toNat_ofNat hs, hp, rfl⟩

/-- A sound memory hands out an index that is not 0 and was not live (I2 to I4). -/
theorem Memory.Sound.memAlloc_fresh (hm : m.Sound) (h : Machine.memAlloc m admitted n = .ok r) :
    r.1 ≠ 0 ∧ m.segment r.1 = none := by
  cases hp : m.pool with
  | nil =>
    obtain ⟨index, -, -⟩ := memAlloc_of_pool_nil h hp
    refine ⟨fun h0 => ?_, Memory.segment_of_slots_le index.ge⟩
    have zero : m.slots = 0 := by rw [← index, h0]; rfl
    exact absurd hm.slotsPositive (by omega)
  | cons i rest =>
    obtain ⟨rfl, -, -⟩ := memAlloc_of_pool_cons h hp
    have pooled : r.1 ∈ m.pool := hp ▸ List.mem_cons_self
    obtain ⟨ne_zero, lt_slots⟩ := hm.poolNamesSlots r.1 pooled
    exact ⟨ne_zero, (hm.unmappedIffPooled r.1 lt_slots).2 pooled⟩

/-- The index handed out holds zeros, and every other index what it held. -/
theorem Memory.Sound.memAlloc_segment (hm : m.Sound) (h : Machine.memAlloc m admitted n = .ok r) (j : Word) :
    r.2.segment j = if r.1 = j then some (.zeros n) else m.segment j := by
  obtain ⟨-, e⟩ | ⟨i, rest, -, hp, e⟩ | ⟨-, -, hs, e⟩ := memAlloc_cases m admitted n
  · exact nomatch e.symm.trans h
  · cases e.symm.trans h
    obtain ⟨-, lt_slots⟩ := hm.poolNamesSlots i (hp ▸ List.mem_cons_self)
    exact Memory.segment_mapSegment m i j _ lt_slots
  · cases e.symm.trans h
    exact Memory.segment_newSlot _ hs (Memory.sparseBelow_of_wf hm.canonical) j

end

/-! ### Free (R45) -/

theorem memFree_of_refused (h : i = 0 ∨ m.lenAt i = none) : memFree m i = .error .invalidSegment := by
  obtain ⟨-, e⟩ | ⟨g, h0, hg, -⟩ := memFree_cases m i
  · exact e
  · obtain hx | hx := h
    · exact absurd hx h0
    · exact nomatch ((Memory.lenAt_eq_none m i).1 hx).symm.trans hg

theorem memFree_of_live (h0 : i ≠ 0) (hi : m.live i = true) :
    ∃ m', memFree m i = .ok m' ∧ m'.pool = i :: m.pool := by
  obtain ⟨g, hg⟩ := (Memory.live_iff m i).1 hi
  obtain ⟨hx | hx, -⟩ | ⟨_, -, -, e⟩ := memFree_cases m i
  · exact absurd hx h0
  · exact nomatch hx.symm.trans hg
  · exact ⟨_, e, rfl⟩

/-- A FREE that goes on leaves its index not live. -/
theorem execFree_lenAt {c : Reg} {s t : State} (h : exec (.free c) s = .next t) (ht : t.runState = .running) :
    t.mem.lenAt (s.reg c) = none := by
  obtain ⟨e, -, rfl⟩ | ⟨m, hm, rfl⟩ := (orRaise_next _ _ _ _).1 h
  · exact absurd ht State.raise_not_running
  · obtain ⟨-, seg⟩ := memFree_segment hm (s.reg c)
    exact (Memory.lenAt_eq_none _ _).2 (seg.trans (if_pos rfl))

/-! ### Install (R46) -/

theorem memInstall_of_not_live (hn : m.lenAt i = none) : memInstall m i o = .error .invalidSegment := by
  simp [memInstall, (Memory.lenAt_eq_none m i).1 hn]

theorem memInstall_of_len_lt (hn : m.lenAt i = some n) (ho : n < o) : memInstall m i o = .error .outOfBounds := by
  obtain ⟨g, hg, rfl⟩ := (Memory.lenAt_eq_some m i n).1 hn
  simp [memInstall, hg, ho]

theorem memInstall_of_eq_zero (hi : i = 0) (hn : m.lenAt 0 = some n) (ho : o ≤ n) : memInstall m i o = .ok m := by
  subst hi
  obtain ⟨g, hg, rfl⟩ := (Memory.lenAt_eq_some m 0 n).1 hn
  simp only [memInstall, hg, if_neg (BitVec.not_lt.2 ho), if_pos]

/-- The copy made from another index is its segment, and the pool is kept (D26). -/
theorem memInstall_of_ne_zero (hi : i ≠ 0) (hn : m.lenAt i = some n) (ho : o ≤ n) :
    ∃ m', memInstall m i o = .ok m' ∧ m'.segment 0 = m.segment i ∧ m'.pool = m.pool := by
  obtain ⟨g, hg, rfl⟩ := (Memory.lenAt_eq_some m i n).1 hn
  refine ⟨m.mapSegment 0 g, ?_, ?_, rfl⟩
  · simp only [memInstall, hg, if_neg (BitVec.not_lt.2 ho), if_neg hi]
  · rw [Memory.segment_install hg, if_pos rfl, hg]

end

/-! ### Receive (R119) -/

section
variable {s : State}

theorem receive_of_next_byte {b : Byte} (hp : s.port = .sequence) (hb : s.input[s.inpos]? = some b) :
    receive s = (.byte b, s.setInpos (s.inpos + 1)) := by
  simp [receive, hp, hb]

theorem receive_at_end (hp : s.port = .sequence) (hb : s.input[s.inpos]? = none) : receive s = (.eof, s) := by
  simp only [receive, hp, hb]

theorem receive_of_answer {a : PortAnswer} {rest : List PortAnswer} (hp : s.port = .interactive (a :: rest)) :
    receive s = (a, s.setPort (.interactive rest)) := by
  simp only [receive, hp]

theorem allOnes_toNat : allOnes.toNat = 2 ^ 32 - 1 := rfl

end

end Sys2Proof.Machine
end

section
/-! The statements about halt, segment management, the ports and load program. -/

namespace Sys2Proof.Machine

/-- Settles O34: a sound memory answers an admitted request that fits with a fresh index, and maps zeros there alone. -/
theorem allocResult : Obligations.AllocResult := by
  refine ⟨formatR_of_row (by decide) rfl fun _ _ _ => rfl, fun b c s hs ha hfit => ?_⟩
  obtain ⟨r, hr⟩ := hs.memAlloc_of_fits (n := s.reg c) hfit
  rw [← ha] at hr
  obtain ⟨ne_zero, unmapped⟩ := hs.memAlloc_fresh hr
  have seg := hs.memAlloc_segment hr
  have mapped := (seg r.1).trans (if_pos rfl)
  refine ⟨(s.setMem r.2).setReg b r.1, orRaise_of_ok hr, ?_⟩
  rw [State.setReg_reg_same]
  refine ⟨fun i rest hp => memAlloc_of_pool_cons hr hp, memAlloc_of_pool_nil hr, ne_zero,
    (Memory.lenAt_eq_none _ _).2 unmapped, (Memory.lenAt_eq_some _ _ _).2 ⟨_, mapped, rfl⟩, fun o ho => ?_,
    fun i hi => Memory.lenAt_wordAt_congr ((seg i).trans (if_neg hi.symm)),
    sameRegs_setReg (s.setMem r.2) b r.1, ⟨rfl, rfl, rfl⟩, rfl, ⟨rfl, rfl, rfl⟩, rfl, rfl⟩
  exact (Memory.wordAt_eq_some _ _ _ _).2 ⟨_, mapped, (Segment.wordAt_zeros _ _).trans (if_pos ho)⟩

/-- Settles O35: the request fails in both cases, with one kind. -/
theorem allocExhausts : Obligations.AllocExhausts :=
  fun _ _ _ h => orRaise_aborts (memAlloc_of_exhausted h)

/-- Settles O36, by what `Free` answers: a memory in which the one index is unmapped and pooled, or `InvalidSegment`. -/
theorem freeResult : Obligations.FreeResult := by
  refine ⟨formatR_of_row (by decide) rfl fun _ _ _ => rfl, fun c s => ⟨fun h0 hl => ?_, fun h => ?_⟩⟩
  · obtain ⟨m, hm, pool⟩ := memFree_of_live h0 hl
    have seg := fun j => (memFree_segment hm j).2
    exact ⟨s.setMem m, orRaise_of_ok hm,
      Memory.live_eq_false.2 ((Memory.lenAt_eq_none _ _).2 ((seg _).trans (if_pos rfl))), pool, memFree_slots hm,
      fun i hi => Memory.lenAt_wordAt_congr ((seg i).trans (if_neg hi.symm)),
      fun _ _ => rfl, ⟨rfl, rfl, rfl⟩, rfl, ⟨rfl, rfl, rfl⟩, rfl, rfl⟩
  · exact orRaise_aborts (memFree_of_refused (h.imp_right Memory.live_eq_false.1))

/-- Settles O37: a value below 256 is the number of the byte it is cut to; a wider one takes the policy. -/
theorem outResult : Obligations.OutResult := by
  refine ⟨formatR_of_row (by decide) rfl fun _ _ _ => rfl, fun c s => ⟨fun hc => ?_, fun hc hp => ?_, fun hc hp => ?_⟩⟩
  · refine ⟨s.emit ((s.reg c).setWidth 8), _, if_pos hc, rfl, ?_, fun _ _ => rfl, sameMemory_of_mem_eq rfl,
      ⟨rfl, rfl, rfl⟩, ⟨rfl, rfl, rfl⟩, rfl, rfl⟩
    rw [BitVec.toNat_setWidth, Nat.mod_eq_of_lt hc]
  · exact ⟨_, execOut_of_abort hc hp, aborts_raise s _⟩
  · exact ⟨_, execOut_of_ignore hc hp, onlyRegs_refl [] s⟩

/-- Settles O38, by whether `INPUT` has a byte at the read position. -/
theorem inResultFromSequence : Obligations.InResultFromSequence := by
  refine ⟨formatR_of_row (by decide) rfl fun _ _ _ => rfl, fun c s hp => ?_⟩
  cases hb : s.input[s.inpos]? with
  | some b =>
    obtain ⟨within, -⟩ := List.getElem?_eq_some_iff.1 hb
    refine ⟨_, execInp_byte (receive_of_next_byte hp hb), fun b' hb' => ⟨?_, rfl⟩, fun hend => absurd within hend.not_gt,
      sameRegs_setReg (s.setInpos _) c _, sameMemory_of_mem_eq rfl, ⟨rfl, rfl, rfl⟩, rfl, rfl, rfl, rfl, rfl⟩
    rw [State.setReg_reg_same, zext32_toNat, Option.some.inj hb']
  | none =>
    refine ⟨_, execInp_eof (receive_at_end hp hb), nofun, fun _ => ⟨?_, rfl⟩,
      sameRegs_setReg s c _, sameMemory_of_mem_eq rfl, ⟨rfl, rfl, rfl⟩, rfl, rfl, rfl, rfl, rfl⟩
    rw [State.setReg_reg_same, allOnes_toNat]

/-- Settles O39, by the answer the host gives next. -/
theorem inResultInteractive : Obligations.InResultInteractive := by
  intro c s answer rest hp hready
  have answered := receive_of_answer hp
  cases answer with
  | notReady => exact absurd rfl hready
  | eof =>
    refine ⟨_, execInp_eof answered, nofun, fun _ => ?_, rfl, rfl, rfl,
      sameRegs_setReg (s.setPort _) c _, sameMemory_of_mem_eq rfl, ⟨rfl, rfl, rfl⟩, rfl, rfl, rfl⟩
    rw [State.setReg_reg_same, allOnes_toNat]
  | byte b =>
    refine ⟨_, execInp_byte answered, fun b' hb' => ?_, nofun, rfl, rfl, rfl,
      sameRegs_setReg (s.setPort _) c _, sameMemory_of_mem_eq rfl, ⟨rfl, rfl, rfl⟩, rfl, rfl, rfl⟩
    rw [State.setReg_reg_same, zext32_toNat, PortAnswer.byte.inj hb']

/-- Settles O41: `Install` of index 0 answers memory as it is, up to and at the end of segment 0. -/
theorem loadProgramJumps : Obligations.LoadProgramJumps := by
  refine ⟨formatR_of_row (by decide) rfl fun _ _ _ => rfl, fun b c s n hb hn => ⟨fun hc => ?_, fun hc => ?_⟩⟩
  · exact ⟨_, orRaise_of_ok (memInstall_of_eq_zero hb hn hc), rfl, fun _ _ => rfl, sameMemory_of_mem_eq rfl,
      ⟨rfl, rfl, rfl⟩, rfl, ⟨rfl, rfl, rfl⟩, rfl⟩
  · exact orRaise_aborts (memInstall_of_len_lt (by rwa [hb]) hc)

/-- Settles O42, by what `Install` of another index answers: a memory changed at index 0 alone, or the kind of the check
that fails. -/
theorem loadProgramInstalls : Obligations.LoadProgramInstalls := by
  refine fun b c s hb => ⟨fun n hn hc => ?_, ?_, ?_⟩
  · obtain ⟨m, hm, copy, pool⟩ := memInstall_of_ne_zero hb hn hc
    exact ⟨_, orRaise_of_ok hm, rfl, (Memory.lenAt_congr copy).trans hn, Memory.wordAt_congr copy,
      fun i hi => Memory.lenAt_wordAt_congr (memInstall_segment_ne_zero hm hi), pool, memInstall_slots hm,
      fun _ _ => rfl, ⟨rfl, rfl, rfl⟩, rfl, ⟨rfl, rfl, rfl⟩, rfl⟩
  · exact fun hn => orRaise_aborts (memInstall_of_not_live hn)
  · exact fun n hn hc => orRaise_aborts (memInstall_of_len_lt hn hc)

/-- Settles O44: the freed index is not live, and each of the four requests checks that first. -/
theorem useAfterFreeAborts : Obligations.UseAfterFreeAborts := by
  intro c s t h _ ht a d e hd
  have freed : t.mem.lenAt (t.reg d) = none := hd ▸ execFree_lenAt h ht
  exact ⟨orRaise_aborts (memRead_of_not_live freed), orRaise_aborts (memWrite_of_not_live freed),
    orRaise_aborts (memFree_of_refused (.inr freed)), orRaise_aborts (memInstall_of_not_live freed)⟩

/-- Settles O33: HALT only records the halt and its cause. -/
theorem haltResult : Obligations.HaltResult :=
  ⟨formatR_of_row (by decide) rfl fun _ _ _ => rfl, fun s => ⟨_, rfl, halts_halt s _⟩⟩

end Sys2Proof.Machine
end

section
/-! The statement about load immediate. -/

namespace Sys2Proof.Machine

/-- Settles O32: opcode 13 decodes as Format I, an immediate that fits has its canonical word, and LI is one register
write. -/
theorem loadImmediateResult : Obligations.LoadImmediateResult :=
  ⟨fun _ => decodeInstr_of_opcode_eq_li, fun a _ fits => encodeI_eq a fits,
    fun a imm s => ⟨s.setReg a imm, rfl, State.setReg_reg_same s a imm, onlyRegs_setReg s a imm⟩⟩

end Sys2Proof.Machine
end

section
/-! The statements about exceptions. -/

namespace Sys2Proof.Machine

/-- Settles O22, by the cases each instruction answers with: a kind is raised where its check fails, and whatever else an
instruction does leaves `RUN_STATE` as it was or halts. -/
theorem errorKindsByInstruction : Obligations.ErrorKindsByInstruction := by
  intro i s t h hr ht
  have hs : s.runState ≠ .aborted := by simp [hr]
  cases i with
  | sload a b c =>
    obtain ⟨-, rfl⟩ | ⟨_, -, -, rfl⟩ | ⟨_, _, -, -, -, rfl⟩ := execSload_next h
    · exact .inl ⟨rfl, .inl ⟨a, b, c, rfl⟩⟩
    · exact .inr (.inl ⟨rfl, .inl ⟨a, b, c, rfl⟩⟩)
    · exact absurd ht hs
  | sstore a b c =>
    obtain ⟨-, rfl⟩ | ⟨_, -, -, rfl⟩ | ⟨_, -, -, rfl⟩ := execSstore_next h
    · exact .inl ⟨rfl, .inr (.inl ⟨a, b, c, rfl⟩)⟩
    · exact .inr (.inl ⟨rfl, .inr (.inl ⟨a, b, c, rfl⟩)⟩)
    · exact absurd ht hs
  | free c =>
    obtain ⟨-, rfl⟩ | ⟨_, -, -, rfl⟩ := execFree_next h
    · exact .inl ⟨rfl, .inr (.inr (.inl ⟨c, rfl⟩))⟩
    · exact absurd ht hs
  | loadp b c =>
    obtain ⟨-, rfl⟩ | ⟨_, -, -, rfl⟩ | ⟨_, -, -, -, rfl⟩ | ⟨_, -, -, -, rfl⟩ := execLoadp_next h
    · exact .inl ⟨rfl, .inr (.inr (.inr ⟨b, c, rfl⟩))⟩
    · exact .inr (.inl ⟨rfl, .inr (.inr ⟨b, c, rfl⟩)⟩)
    · exact absurd ht hs
    · exact absurd ht hs
  | div a b c =>
    obtain ⟨hc, rfl⟩ | ⟨-, rfl⟩ := execDiv_next h
    · exact .inr (.inr (.inl ⟨rfl, a, b, c, rfl, hc⟩))
    · exact absurd ht hs
  | out c =>
    obtain ⟨-, rfl⟩ | ⟨hc, -, rfl⟩ | ⟨-, -, rfl⟩ := execOut_next h
    · exact absurd ht hs
    · exact .inr (.inr (.inr (.inl ⟨rfl, c, rfl, hc⟩)))
    · exact absurd ht hs
  | alloc b c =>
    obtain ⟨-, rfl⟩ | ⟨_, _, -, -, rfl⟩ | ⟨-, -, -, rfl⟩ := execAlloc_next h
    · exact .inr (.inr (.inr (.inr ⟨rfl, b, c, rfl⟩)))
    · exact absurd ht hs
    · exact absurd ht hs
  | cmov a b c =>
    obtain ⟨-, rfl⟩ | ⟨-, rfl⟩ := execCmov_next h
    · exact absurd ht hs
    · exact absurd ht hs
  | inp c =>
    have received : (receive s).2.runState ≠ .aborted := by simp [hr]
    obtain ⟨_, -, rfl⟩ | ⟨-, rfl⟩ | ⟨-, rfl⟩ := execInp_next h
    · exact absurd ht received
    · exact absurd ht received
    · exact absurd ht received
  | halt =>
    obtain rfl := Host.Outcome.next.inj h
    exact nomatch ht
  | add _ _ _ | mul _ _ _ | nand _ _ _ | li _ _ =>
    obtain rfl := Host.Outcome.next.inj h
    exact absurd ht hs

/-- The kinds of R108's column are among those a step can raise. -/
theorem exec_errKind_mem_stepKinds {i : Instr} {s t : State} (h : exec i s = .next t) (hr : s.runState = .running)
    (ht : t.runState = .aborted) : t.errKind ∈ stepKinds := by
  obtain ⟨e, -⟩ | ⟨e, -⟩ | ⟨e, -⟩ | ⟨e, -⟩ | ⟨e, -⟩ := errorKindsByInstruction i s t h hr ht <;> rw [e] <;> decide

/-- Settles O21: an invalid opcode and an instruction that aborts raise a kind on the state fetch leaves, and no other
step aborts. -/
theorem fatalErrorsArePrecise : Obligations.FatalErrorsArePrecise := by
  intro s t hr h ht
  obtain ⟨hn, -⟩ | ⟨-, -, rfl⟩ | ⟨w, n, -, -, -, rfl⟩ | ⟨w, i, -, -, -, hx⟩ := step_cases h
  · exact absurd hr hn
  · exact nomatch ht
  · exact ⟨List.mem_cons_self, rfl⟩
  · exact ⟨exec_errKind_mem_stepKinds hx hr ht, (exec_effect hx).eq_raise_of_aborted (by simp [hr]) ht⟩

end Sys2Proof.Machine
end

section
/-! SUPPORT. When a launch is refused (R127), and the launch of an image that gives no word (R128). -/

namespace Sys2Proof.Machine

/-- A launch is refused for the number of the image's words alone, whatever becomes of its tail (R127, log 35). -/
theorem launch_eq_none {config : Config} {image input : List Byte} {port : InputPort} :
    launch config image input port = none ↔ 2 ^ 32 - 1 < (imageWords image).length := by
  simp only [launch]
  split
  · next long => exact iff_of_true rfl long
  · next fits => split <;> exact iff_of_false (Option.some_ne_none _) fits

theorem imageWords_of_length_lt {image : List Byte} (short : image.length < 4) : imageWords image = [] :=
  List.length_eq_zero_iff.1 ((imageWords_length image).trans (Nat.div_eq_of_lt short))

end Sys2Proof.Machine
end

section
/-! The statements about the images at both ends: too long to launch, and of no word. -/

namespace Sys2Proof.Machine

/-- Settles O5: a launch is refused for its number of words, which is a quarter of its bytes, rounded down. -/
theorem launchRefusesOversizedImage : Obligations.LaunchRefusesOversizedImage :=
  fun _ image _ _ => imageWords_length image ▸ launch_eq_none

/-- Settles O6: the launch loads no word, so `pc` is at the end of segment 0 and the step is the one at the end of the
stream. -/
theorem emptyImageHaltsExhausted : Obligations.EmptyImageHaltsExhausted := by
  intro config image input port short kept
  have noWords := imageWords_of_length_lt short
  obtain ⟨s, launched⟩ : ∃ s, launch config image input port = some s :=
    ⟨_, launch_of_not_rejected input port (by simp [noWords]) kept⟩
  obtain ⟨-, pc, -, -, len, -, -, -, -, -, -, -, status⟩ := launchLeavesResetValues config image input port s launched
  have atEnd : s.mem.lenAt 0 = some s.pc := by
    rw [len, noWords, pc]
    rfl
  exact ⟨s, _, launched, step_of_exhausted (status kept).1 atEnd, halts_halt s _, pc⟩

end Sys2Proof.Machine
end
